-- ==== Sys2Proof/Word.lean ====
section
/-! DEFINITION. The words of LC-CORE and the one container its arrays are held in. -/

namespace Sys2Proof

/-- A byte of operand memory, of a seed or of a checksum (10_state.md R22, R40). -/
abbrev Byte := BitVec 8

/-- One 16-bit storage cell of a ring register or of a sketch sequence (10_state.md R21, R26). -/
abbrev Lane := BitVec 16

/-- A command word or a control register (10_state.md R27, 30_encoding.md R70). -/
abbrev Word := BitVec 32

/-- An operand-memory byte address as a command carries it (10_state.md R40). -/
abbrev Addr := BitVec 16

/-- A sequence of exactly `n` entries: plain data (a list) with the one fact about it, its length. -/
structure Vec (α : Type) (n : Nat) where
  toList : List α
  length_eq : toList.length = n
deriving DecidableEq, Repr

namespace Vec

variable {α : Type} {n w : Nat}

/-- `f i, f (i+1), ..`, `k` entries. -/
def tabFrom (f : Nat → α) : Nat → Nat → List α
  | 0, _ => []
  | k + 1, i => f i :: tabFrom f k (i + 1)

theorem length_tabFrom (f : Nat → α) (k i : Nat) : (tabFrom f k i).length = k := by
  induction k generalizing i with
  | zero => rfl
  | succ k ih => simp [tabFrom, ih]

/-- The sequence whose entry `i` is `f i`, for `i < n`. -/
def tab (n : Nat) (f : Nat → α) : Vec α n := ⟨tabFrom f n 0, length_tabFrom f n 0⟩

/-- Entry `i` of a sequence of words. Every use in the model has `i < n`; above it reads 0. -/
def nth (v : Vec (BitVec w) n) (i : Nat) : BitVec w := v.toList.getD i 0

/-- Entry `i`, the index known to be in range: how a register file is read. -/
def get (v : Vec α n) (i : Fin n) : α := v.toList[i.val]'(v.length_eq.symm ▸ i.isLt)

/-- Replace entry `i`. -/
def set (v : Vec α n) (i : Fin n) (x : α) : Vec α n :=
  ⟨v.toList.set i.val x, by rw [List.length_set, v.length_eq]⟩

end Vec

/-- `f 0 + f 1 + .. + f (n-1)`, exact (00_scope.md R12: unbounded integers). -/
def sumTo : Nat → (Nat → Nat) → Nat
  | 0, _ => 0
  | n + 1, f => sumTo n f + f n

end Sys2Proof
end

