-- ==== Sys2Proof/Config.lean ====
section
/-! DEFINITION. What is fixed for the life of the hardware (00_scope.md R7 to R10; 10_state.md R42), and the free
values: the two open primitives and what reset leaves unspecified. A free value is an opaque constant with no body:
no proof can evaluate it, so what is proved holds whatever it is. -/

namespace Sys2Proof.Config

/-- Coefficients per ring element (00_scope.md R7, LCS §3). -/
abbrev N : Nat := 256

/-- The coefficient modulus (00_scope.md R7, LCS §3). -/
abbrev Q : Nat := 3329

/-- The valid length N/2 of the anchor and of the parity sequence (00_scope.md R7). -/
abbrev HALF : Nat := 128

/-- Bytes of a seed (00_scope.md R7). -/
abbrev SEED_BYTES : Nat := 32

/-- Bytes of a checksum (00_scope.md R7). -/
abbrev CHK_BYTES : Nat := 8

/-- Bytes of a serialised ring element, 2N (00_scope.md R7, R15). -/
abbrev RING_BYTES : Nat := 512

/-- Entries each of the anchor and the parity buffer hold (00_scope.md R8). -/
abbrev SKCAP : Nat := 256

/-- Bytes of operand memory (00_scope.md R8). -/
abbrev OMEM_BYTES : Nat := 65536

/-- The version of the command set (10_state.md R36). -/
abbrev VERSION : Nat := 1

/-- FREE. The open parameter GenWide: the `i`-th wide value drawn from a 32-byte seed and a domain tag, a function of
these three and of nothing else (00_scope.md R9; asked for `i < N` only). Assumption log 2. -/
opaque GenWide : Vec Byte 32 → Byte → Nat → Nat

/-- FREE. The open parameter Checksum8, byte `j` of the 8: a function of the 512 input bytes and of nothing else
(00_scope.md R10; asked for `j < 8` only). Assumption log 2. -/
opaque checksumByte : Vec Byte 512 → Nat → Byte

/-! What reset leaves unspecified (10_state.md R43; 93_implementation_defined.md U1: any value, drawn afresh at each
reset, one draw per location; never zero by rule). The first argument numbers the reset. Assumption log 3. -/

/-- FREE. Lane `i` of ring register `r` after reset number `e`. -/
opaque resetLane : (e r i : Nat) → Lane

/-- FREE. Byte `j` of seed register `s` after reset number `e`. -/
opaque resetSeedByte : (e s j : Nat) → Byte

/-- FREE. Byte `j` of SK.seed after reset number `e`. -/
opaque resetSketchSeedByte : (e j : Nat) → Byte

/-- FREE. Byte `j` of SK.chk after reset number `e`. -/
opaque resetSketchChkByte : (e j : Nat) → Byte

/-- FREE. Entry `j` of the anchor buffer after reset number `e`. -/
opaque resetAnchor : (e j : Nat) → Lane

/-- FREE. Entry `j` of the parity buffer after reset number `e`. -/
opaque resetParity : (e j : Nat) → Lane

/-- FREE. The operand-memory byte at `a` after reset number `e`, until something writes it. -/
opaque resetByte : (e a : Nat) → Byte

end Sys2Proof.Config
end

