-- ==== Sys2Proof/Syntax.lean ====
section
/-! DEFINITION. The commands of LC-CORE command set v1: one constructor per row of spec/opcode_table.json
(30_encoding.md R78), operands in the order of the assembler (R81), each of the width R75 gives its field. -/

namespace Sys2Proof

/-- The number of a ring register R0..R15; every value is legal (10_state.md R24). -/
abbrev RingReg := Fin 16

/-- The number of a seed register S0..S15; every value is legal (10_state.md R22). -/
abbrev SeedReg := Fin 16

/-- A command (30_encoding.md R78). -/
inductive Instr
  -- system (43_system.md)
  | nop
  | clrerr
  -- ring arithmetic (40_ring_arith.md)
  | radd (rd rs1 rs2 : RingReg)
  | rsub (rd rs1 rs2 : RingReg)
  | rmul (rd rs1 rs2 : RingReg)
  | rred (rd : RingReg)
  | req (rs1 rs2 : RingReg)
  | rgen (rd : RingReg) (ss : SeedReg) (domain : Byte)
  -- data movement (41_data_movement.md)
  | ldr (rd : RingReg) (addr : Addr)
  | str (rs : RingReg) (addr : Addr)
  | lds (sd : SeedReg) (addr : Addr)
  | sts (ss : SeedReg) (addr : Addr)
  | rzero (rd : RingReg)
  | rsetl (rd : RingReg) (idx : Fin 256) (imm : BitVec 12)
  | rgetl (rs : RingReg) (idx : Fin 256)
  -- sketch codec (42_sketch_codec.md)
  | compress (ra rb : RingReg) (ss : SeedReg)
  | decompress (rda rdb : RingReg)
  | ksize
  | sksize
  | sklds (addr : Addr)
  | sksts (addr : Addr)
  | sklda (addr : Addr) (len : BitVec 8)
  | sksta (addr : Addr)
  | skldc (addr : Addr)
  | skstc (addr : Addr)
  | skldp (addr : Addr) (len : BitVec 8)
  | skstp (addr : Addr)
deriving DecidableEq, Repr

/-- The pseudo-instruction `RONE rd`: RZERO rd, then RSETL rd, 0, 1 (30_encoding.md R86). -/
def Instr.rone (rd : RingReg) : List Instr := [.rzero rd, .rsetl rd 0 1]

end Sys2Proof
end

