-- ==== Sys2Proof/WellFormed.lean ====
section
/-! DEFINITION. The one check on a command that its operands' types do not make: DECOMPRESS names two different
registers (30_encoding.md R72, R78; 42_sketch_codec.md R142). -/

namespace Sys2Proof

/-- Every command that some word encodes is well formed, and no other. -/
def Instr.wellFormed : Instr → Bool
  | .decompress rda rdb => rda != rdb
  | .nop | .clrerr | .radd _ _ _ | .rsub _ _ _ | .rmul _ _ _ | .rred _ | .req _ _ | .rgen _ _ _
  | .ldr _ _ | .str _ _ | .lds _ _ | .sts _ _ | .rzero _ | .rsetl _ _ _ | .rgetl _ _
  | .compress _ _ _ | .ksize | .sksize
  | .sklds _ | .sksts _ | .sklda _ _ | .sksta _ | .skldc _ | .skstc _ | .skldp _ _ | .skstp _ => true

end Sys2Proof
end

