-- ==== Sys2Proof/Decode.lean ====
section
/-! DEFINITION. Decoding and encoding of command words (30_encoding.md R70 to R80). -/

namespace Sys2Proof

/-- `w[hi:lo]`, the field of bits hi down to lo read as an unsigned integer (00_scope.md R11). -/
def bits (w : Word) (hi lo : Nat) : Nat := w.toNat / 2 ^ lo % 2 ^ (hi + 1 - lo)

/-! ### Fields of a command word (30_encoding.md R75) -/

/-- `op`, bits 31:24. -/
def opField (w : Word) : Nat := bits w 31 24
/-- `a`, bits 23:20, the first register number. -/
def aField (w : Word) : Fin 16 := Fin.ofNat 16 (bits w 23 20)
/-- `b`, bits 19:16, the second register number. -/
def bField (w : Word) : Fin 16 := Fin.ofNat 16 (bits w 19 16)
/-- `c`, bits 15:12, the third register number. -/
def cField (w : Word) : Fin 16 := Fin.ofNat 16 (bits w 15 12)
/-- `len8`, bits 23:16. -/
def lenField (w : Word) : BitVec 8 := BitVec.ofNat 8 (bits w 23 16)
/-- `idx8`, bits 19:12. -/
def idxField (w : Word) : Fin 256 := Fin.ofNat 256 (bits w 19 12)
/-- `imm12`, bits 11:0. -/
def immField (w : Word) : BitVec 12 := BitVec.ofNat 12 (bits w 11 0)
/-- `imm16`, bits 15:0. -/
def addrField (w : Word) : Addr := BitVec.ofNat 16 (bits w 15 0)
/-- `dom8`, bits 7:0. -/
def domField (w : Word) : Byte := BitVec.ofNat 8 (bits w 7 0)

/-! ### Formats (30_encoding.md R76) -/

/-- The ten formats. -/
inductive CmdFormat
  | z | r3 | r2 | r1 | g | m | a | l | i | x
deriving DecidableEq, Repr

/-- The bits the format marks 0 are all 0 in `w` (30_encoding.md R76's table, its "0" columns). -/
def CmdFormat.zerosClear : CmdFormat → Word → Bool
  | .z, w => bits w 23 0 == 0
  | .r3, w => bits w 11 0 == 0
  | .r2, w => bits w 15 0 == 0
  | .r1, w => bits w 19 0 == 0
  | .g, w => bits w 15 8 == 0
  | .m, w => bits w 19 16 == 0
  | .a, w => bits w 23 16 == 0
  | .l, _ => true
  | .i, _ => true
  | .x, w => bits w 11 0 == 0

/-! ### Decode (30_encoding.md R72, R78, R79) -/

/-- Why a word is illegal: the three cases of 30_encoding.md R79. All three raise ILLEGAL_CMD. -/
inductive Illegal
  /-- `op` is none of the 27 opcodes. -/
  | unassignedOpcode
  /-- a 1 in a must-be-zero bit of the format. -/
  | mustBeZero
  /-- DECOMPRESS with a = b. -/
  | equalDestinations
deriving DecidableEq, Repr

/-- The verdict of Decode on a word. -/
inductive Decoded
  | command (i : Instr)
  | illegal (why : Illegal)
deriving DecidableEq, Repr

/-- The command the word's fields give, once its must-be-zero bits are seen to be clear. -/
def inFormat (f : CmdFormat) (w : Word) (i : Instr) : Decoded :=
  if f.zerosClear w then
    if i.wellFormed then .command i else .illegal .equalDestinations
  else .illegal .mustBeZero

/-- Decode(W): total on all words, reads no state (30_encoding.md R72; the opcodes are R78's table). -/
def decodeWord (w : Word) : Decoded :=
  match opField w with
  | 0x00 => inFormat .z w .nop
  | 0x01 => inFormat .z w .clrerr
  | 0x10 => inFormat .r3 w (.radd (aField w) (bField w) (cField w))
  | 0x11 => inFormat .r3 w (.rsub (aField w) (bField w) (cField w))
  | 0x12 => inFormat .r3 w (.rmul (aField w) (bField w) (cField w))
  | 0x13 => inFormat .r1 w (.rred (aField w))
  | 0x14 => inFormat .r2 w (.req (aField w) (bField w))
  | 0x15 => inFormat .g w (.rgen (aField w) (bField w) (domField w))
  | 0x20 => inFormat .m w (.ldr (aField w) (addrField w))
  | 0x21 => inFormat .m w (.str (aField w) (addrField w))
  | 0x22 => inFormat .m w (.lds (aField w) (addrField w))
  | 0x23 => inFormat .m w (.sts (aField w) (addrField w))
  | 0x24 => inFormat .r1 w (.rzero (aField w))
  | 0x25 => inFormat .i w (.rsetl (aField w) (idxField w) (immField w))
  | 0x26 => inFormat .x w (.rgetl (aField w) (idxField w))
  | 0x30 => inFormat .r3 w (.compress (aField w) (bField w) (cField w))
  | 0x31 => inFormat .r2 w (.decompress (aField w) (bField w))
  | 0x32 => inFormat .z w .ksize
  | 0x33 => inFormat .z w .sksize
  | 0x38 => inFormat .a w (.sklds (addrField w))
  | 0x39 => inFormat .a w (.sksts (addrField w))
  | 0x3A => inFormat .l w (.sklda (addrField w) (lenField w))
  | 0x3B => inFormat .a w (.sksta (addrField w))
  | 0x3C => inFormat .a w (.skldc (addrField w))
  | 0x3D => inFormat .a w (.skstc (addrField w))
  | 0x3E => inFormat .l w (.skldp (addrField w) (lenField w))
  | 0x3F => inFormat .a w (.skstp (addrField w))
  | _ => .illegal .unassignedOpcode

/-- The command a word carries, if it carries one. -/
def decode (w : Word) : Option Instr :=
  match decodeWord w with
  | .command i => some i
  | .illegal _ => none

/-! ### Encode (30_encoding.md R75 to R78) -/

/-- A word of format Z, R3, R2, R1 or G: op, the register fields a, b, c, and the low 12 bits. -/
def packRegs (op : Nat) (a b c : Fin 16) (low : Nat) : Word :=
  BitVec.ofNat 32 (op * 2 ^ 24 + a.val * 2 ^ 20 + b.val * 2 ^ 16 + c.val * 2 ^ 12 + low)

/-- A word of format M or A: op, the register field a (0 in A), and imm16. -/
def packAddr (op : Nat) (a : Fin 16) (addr : Addr) : Word :=
  BitVec.ofNat 32 (op * 2 ^ 24 + a.val * 2 ^ 20 + addr.toNat)

/-- A word of format L: op, len8 and imm16. -/
def packLen (op : Nat) (len : BitVec 8) (addr : Addr) : Word :=
  BitVec.ofNat 32 (op * 2 ^ 24 + len.toNat * 2 ^ 16 + addr.toNat)

/-- A word of format I or X: op, the register field a, idx8 and imm12 (0 in X). -/
def packIdx (op : Nat) (a : Fin 16) (idx : Fin 256) (imm : BitVec 12) : Word :=
  BitVec.ofNat 32 (op * 2 ^ 24 + a.val * 2 ^ 20 + idx.val * 2 ^ 12 + imm.toNat)

/-- The word of a command (30_encoding.md R78). -/
def encode : Instr → Word
  | .nop => packRegs 0x00 0 0 0 0
  | .clrerr => packRegs 0x01 0 0 0 0
  | .radd rd rs1 rs2 => packRegs 0x10 rd rs1 rs2 0
  | .rsub rd rs1 rs2 => packRegs 0x11 rd rs1 rs2 0
  | .rmul rd rs1 rs2 => packRegs 0x12 rd rs1 rs2 0
  | .rred rd => packRegs 0x13 rd 0 0 0
  | .req rs1 rs2 => packRegs 0x14 rs1 rs2 0 0
  | .rgen rd ss domain => packRegs 0x15 rd ss 0 domain.toNat
  | .ldr rd addr => packAddr 0x20 rd addr
  | .str rs addr => packAddr 0x21 rs addr
  | .lds sd addr => packAddr 0x22 sd addr
  | .sts ss addr => packAddr 0x23 ss addr
  | .rzero rd => packRegs 0x24 rd 0 0 0
  | .rsetl rd idx imm => packIdx 0x25 rd idx imm
  | .rgetl rs idx => packIdx 0x26 rs idx 0
  | .compress ra rb ss => packRegs 0x30 ra rb ss 0
  | .decompress rda rdb => packRegs 0x31 rda rdb 0 0
  | .ksize => packRegs 0x32 0 0 0 0
  | .sksize => packRegs 0x33 0 0 0 0
  | .sklds addr => packAddr 0x38 0 addr
  | .sksts addr => packAddr 0x39 0 addr
  | .sklda addr len => packLen 0x3A len addr
  | .sksta addr => packAddr 0x3B 0 addr
  | .skldc addr => packAddr 0x3C 0 addr
  | .skstc addr => packAddr 0x3D 0 addr
  | .skldp addr len => packLen 0x3E len addr
  | .skstp addr => packAddr 0x3F 0 addr

/-- What the decoder reads from a table row's word: every command is one 32-bit word (30_encoding.md R70), so bit k of
`w` is bit k of the word, and a bit above `nbits` is 0. -/
def decodeTableWord (nbits w : Nat) : Option Instr := decode (BitVec.ofNat 32 (w % 2 ^ nbits))

end Sys2Proof
end

