-- ==== Sys2Proof/Machine/State.lean ====
section
/-! DEFINITION. The state of LC-CORE (10_state.md R20: ring registers, seed registers, command counter, sketch register,
control registers, operand memory), the host's side of the interface held as data, and the state after reset. -/

namespace Sys2Proof.Machine

open Sys2Proof

/-- N lanes: what a ring register holds (10_state.md R21). -/
abbrev RingElem := Vec Lane Config.N

/-- 32 bytes: what a seed register holds (10_state.md R22). -/
abbrev Seed := Vec Byte Config.SEED_BYTES

/-- 8 bytes: a checksum (10_state.md R26). -/
abbrev Chk := Vec Byte Config.CHK_BYTES

/-- The sketch register SK (10_state.md R26), fields in LCS's order (90_conflicts.md C6). -/
structure Sketch where
  seed   : Seed
  /-- The current length of the anchor sequence, 0..255. -/
  alen   : BitVec 8
  /-- Only entries `j < alen` are part of the sequence. -/
  anchor : Vec Lane Config.SKCAP
  chk    : Chk
  /-- The current length of the parity sequence, 0..255. -/
  plen   : BitVec 8
  /-- Only entries `j < plen` are part of the sequence. -/
  parity : Vec Lane Config.SKCAP
deriving DecidableEq, Repr

/-- Operand memory: the bytes written since reset, addresses strictly rising. An address that is not listed has been
written by nothing since reset; at this level it reads as no value (`Memory.unlisted`), so no entry can equal that. -/
abbrev Memory := List Host.Cell

/-- What an address that no entry lists reads as: no value (10_state.md R43, 93_implementation_defined.md U1). The free
byte a reader then sees is `State.readByte`'s (Config.resetByte). Assumption log 4. -/
def Memory.unlisted : Option Byte := none

/-- The canonical form: addresses strictly rising, all inside operand memory (10_state.md R40). -/
abbrev Memory.wf (m : Memory) : Prop :=
  m.Pairwise (fun c d => c.1 < d.1) ∧ ∀ c ∈ m, c.1 < Config.OMEM_BYTES

/-- Everything the host can do to the unit (70_reset_and_hazards.md R215), one constructor per row of its table; a
CTRL write and a write to any other control offset are `writeCtrl` too. -/
inductive HostAction
  /-- Write byte `v` to operand memory at `addr`. -/
  | writeMem (addr : Addr) (v : Byte)
  /-- Read operand memory at `addr`. -/
  | readMem (addr : Addr)
  /-- Read the control register at byte offset `off` of the control space. -/
  | readCtrl (off : Nat)
  /-- Write the word `w` at byte offset `off`; at the offset of CMD this issues the command `w`. -/
  | writeCtrl (off : Nat) (w : Word)
  /-- Pulse the reset input. -/
  | resetInput
deriving DecidableEq, Repr

/-- What a host read got back. -/
inductive HostReply
  | memByte (addr : Addr) (v : Byte)
  | ctrlWord (off : Nat) (w : Word)
deriving DecidableEq, Repr

/-- The host's side: the MODEL's own, no state of the unit (10_state.md R42: the sequence of commands is an input of a
run). Assumption log 1. -/
structure HostPort where
  /-- What the host does next, first action first. -/
  pending : List HostAction
  /-- What its reads got back, newest first. -/
  replies : List HostReply
deriving DecidableEq, Repr

/-- The state. -/
structure State where
  /-- R0..R15 (10_state.md R21). -/
  ring    : Vec RingElem 16
  /-- S0..S15 (10_state.md R22). -/
  seeds   : Vec Seed 16
  /-- SK (10_state.md R26). -/
  sk      : Sketch
  /-- CMDCNT, the command counter (10_state.md R23). -/
  cmdcnt  : Word
  /-- STATUS: bit 0 FAULT (10_state.md R29). -/
  status  : Word
  /-- RESULT: bits 1:0 CODE (10_state.md R30). -/
  result  : Word
  /-- ESTICKY: bits 1, 2, 3 (10_state.md R31). -/
  esticky : Word
  /-- RVAL (10_state.md R32). -/
  rval    : Word
  /-- FCAUSE: bits 1:0 CAUSE (10_state.md R33). -/
  fcause  : Word
  /-- FCMD (10_state.md R34). -/
  fcmd    : Word
  /-- OMEM (10_state.md R40). -/
  omem    : Memory
  /-- The MODEL's own: how many resets came after the first, which numbers the free values of unspecified storage.
  Assumption log 3. -/
  epoch   : Nat
  /-- The MODEL's own: the host. Assumption log 1. -/
  host    : HostPort
deriving DecidableEq, Repr

/-- Result codes (60_exceptions.md R181). -/
inductive ResultCode
  | ok
  | invalidInput
  | checksumMismatch
  /-- In the taxonomy, yielded by no command (60_exceptions.md R183, 93_implementation_defined.md U6). -/
  | reconstructionFailed
deriving DecidableEq, Repr

/-- Causes of the hardware's own fault (60_exceptions.md R187). -/
inductive FaultCause
  | illegalCmd
  | addrRange
deriving DecidableEq, Repr

/-- The control registers, one name per row of 10_state.md R27's map. -/
inductive CtrlReg
  | cmd | status | result | esticky | rval | cmdcnt | fcause | fcmd | skAlen | skPlen | paramN | paramQ | ctrl | version
deriving DecidableEq, Repr

/-- Faults of the MODEL: none. LC-CORE's own fault (60_exceptions.md R190) is a next state, with STATUS, FCAUSE and FCMD
written; nothing in the spec stops the machine without an effect, so this closed type has no constructor and no step
ends in it (safe: nothing is stopped). -/
inductive Fault
deriving DecidableEq, Repr

/-- Refusals of the MODEL. -/
inductive Refusal
  /-- A command that has no meaning yet: raised only by a refused arm of `exec`, and no arm is refused (safe). -/
  | notModelled (mnemonic : String)
deriving DecidableEq, Repr

/-- The unit right after its reset number `e`, the host as it was (10_state.md R43; 70_reset_and_hazards.md R210): the
control registers and both sketch lengths are 0, and every array holds free values (93_implementation_defined.md U1). -/
def State.atReset (e : Nat) (host : HostPort) : State where
  ring    := .tab 16 fun r => .tab Config.N fun i => Config.resetLane e r i
  seeds   := .tab 16 fun s => .tab Config.SEED_BYTES fun j => Config.resetSeedByte e s j
  sk      :=
    { seed   := .tab Config.SEED_BYTES fun j => Config.resetSketchSeedByte e j
      alen   := 0
      anchor := .tab Config.SKCAP fun j => Config.resetAnchor e j
      chk    := .tab Config.CHK_BYTES fun j => Config.resetSketchChkByte e j
      plen   := 0
      parity := .tab Config.SKCAP fun j => Config.resetParity e j }
  cmdcnt  := 0
  status  := 0
  result  := 0
  esticky := 0
  rval    := 0
  fcause  := 0
  fcmd    := 0
  omem    := []
  epoch   := e
  host    := host

/-- The machine right after the first reset, the host having asked for nothing yet (10_state.md R43). -/
def State.reset : State := State.atReset 0 { pending := [], replies := [] }

end Sys2Proof.Machine
end

