-- ==== Sys2Proof/Machine/Ops.lean ====
section
/-! DEFINITION. The named operations over registers and operand memory, taking a fault, and leaving it. -/

namespace Sys2Proof.Machine

open Sys2Proof

/-! ### Operand memory: the list of bytes written since reset -/

/-- The byte listed at `a`, or what an unlisted address reads as. -/
def Memory.lookup : Memory → Nat → Option Byte
  | [], _ => Memory.unlisted
  | (k, v) :: m, a => if a = k then some v else Memory.lookup m a

/-- Write one byte, keeping addresses rising. -/
def Memory.write : Memory → Nat → Byte → Memory
  | [], a, v => [(a, v)]
  | (k, u) :: m, a, v =>
    if a < k then (a, v) :: (k, u) :: m
    else if a = k then (a, v) :: m
    else (k, u) :: Memory.write m a v

/-- MemWrite: the bytes `bs` at `a`, `a+1`, .. in this order (00_scope.md R14). -/
def Memory.writeBytes : Memory → Nat → List Byte → Memory
  | m, _, [] => m
  | m, a, b :: bs => (Memory.writeBytes m (a + 1) bs).write a b

/-- InRange(addr, n) (00_scope.md R14, 20_memory.md R56). -/
abbrev InRange (addr n : Nat) : Prop := n = 0 ∨ addr + n - 1 ≤ 0xFFFF

namespace State

/-- One byte of operand memory, as a command or the host reads it: the byte last written there since reset, else the
free value reset left (10_state.md R43, 20_memory.md R61). -/
def readByte (s : State) (a : Nat) : Byte :=
  match s.omem.lookup a with
  | some v => v
  | none => Config.resetByte s.epoch a

/-- MemRead(addr, n): lowest address first (00_scope.md R14). -/
def memRead (s : State) (addr n : Nat) : Vec Byte n := .tab n fun j => s.readByte (addr + j)

/-- MemWrite(addr, n, v), `v[0]` at addr (00_scope.md R14). -/
def memWrite (s : State) (addr : Nat) (bytes : List Byte) : State :=
  { s with omem := s.omem.writeBytes addr bytes }

/-! ### Registers -/

/-- R[r]: no ring register is hardwired (10_state.md R24). -/
def ringReg (s : State) (r : RingReg) : RingElem := s.ring.get r

/-- R[r] <- x. -/
def setRing (s : State) (r : RingReg) (x : RingElem) : State := { s with ring := s.ring.set r x }

/-- S[k] (10_state.md R22). -/
def seedReg (s : State) (k : SeedReg) : Seed := s.seeds.get k

/-- S[k] <- x. -/
def setSeed (s : State) (k : SeedReg) (x : Seed) : State := { s with seeds := s.seeds.set k x }

/-- SK <- k: all of the sketch register. -/
def setSketch (s : State) (k : Sketch) : State := { s with sk := k }

/-- RVAL <- v (10_state.md R32). -/
def setRval (s : State) (v : Word) : State := { s with rval := v }

/-- STATUS.FAULT = 1 (10_state.md R29). -/
def faulted (s : State) : Bool := s.status.getLsbD 0

end State

/-! ### Taking a fault and leaving it -/

/-- The number FCAUSE records (60_exceptions.md R187). -/
def FaultCause.code : FaultCause → Word
  | .illegalCmd => 1
  | .addrRange => 2

/-- `raise Fault(cause)` for the command word `w`: exactly three writes (60_exceptions.md R190). -/
def State.raiseFault (s : State) (cause : FaultCause) (w : Word) : State :=
  { s with status := 1, fcause := cause.code, fcmd := w }

/-- Reset, by the reset input or by CTRL.SRST: the only way out of a fault (60_exceptions.md R193,
70_reset_and_hazards.md R210). The host keeps what it was going to do and what it has read. -/
def State.resetUnit (s : State) : State := State.atReset (s.epoch + 1) s.host

end Sys2Proof.Machine
end

