-- ==== Sys2Proof/Machine/Flags.lean ====
section
/-! DEFINITION. The flag-like state: RESULT, ESTICKY, and retirement (10_state.md R30, R31, R45; 30_encoding.md R73). -/

namespace Sys2Proof.Machine

open Sys2Proof

/-- The numbers of the result codes (60_exceptions.md R181). -/
def ResultCode.number : ResultCode → Nat
  | .ok => 0
  | .invalidInput => 1
  | .checksumMismatch => 2
  | .reconstructionFailed => 3

/-- The word RESULT holds for a code: CODE in bits 1:0, the reserved bits 0 (10_state.md R30). -/
def ResultCode.word (c : ResultCode) : Word := BitVec.ofNat 32 c.number

/-- ESTICKY after a command retires with `c`: the bit whose number is the code is set, unless the code is OK
(30_encoding.md R73, 10_state.md R31). -/
def stickyAfter (e : Word) (c : ResultCode) : Word :=
  match c with
  | .ok => e
  | _ => e ||| (1#32 <<< c.number)

/-- Retire(result): RESULT, ESTICKY and CMDCNT, which wraps modulo 2^32 (30_encoding.md R73, 10_state.md R23). -/
def State.retire (s : State) (c : ResultCode) : State :=
  { s with result := c.word, esticky := stickyAfter s.esticky c, cmdcnt := s.cmdcnt + 1 }

/-- ESTICKY <- 0 (43_system.md R171). -/
def State.clearSticky (s : State) : State := { s with esticky := 0 }

end Sys2Proof.Machine
end

