-- ==== Sys2Proof/Machine/Operands.lean ====
section
/-! DEFINITION. Operand forms: the byte form of a lane sequence, immediates, and the one addressing mode
(00_scope.md R14, R15; 20_memory.md R50, R51; 30_encoding.md R77; 41_data_movement.md R120). -/

namespace Sys2Proof.Machine

open Sys2Proof

/-! ### Lanes as bytes, little-endian (00_scope.md R15, 20_memory.md R50) -/

/-- The byte at the lower address: `x mod 256`. -/
def lowByte (x : Lane) : Byte := BitVec.ofNat 8 (x.toNat % 256)

/-- The byte at the higher address: `x div 256`. -/
def highByte (x : Lane) : Byte := BitVec.ofNat 8 (x.toNat / 256)

/-- `b0 + 256 * b1`, `b0` from the lower address. -/
def laneOf (b0 b1 : Byte) : Lane := BitVec.ofNat 16 (b0.toNat + 256 * b1.toNat)

/-- The bytes of a lane sequence in index order, two per lane. -/
def laneBytes : List Lane → List Byte
  | [] => []
  | x :: xs => lowByte x :: highByte x :: laneBytes xs

theorem length_laneBytes (xs : List Lane) : (laneBytes xs).length = 2 * xs.length := by
  induction xs with
  | nil => rfl
  | cons x xs ih => simp [laneBytes, ih]; omega

/-- Ser(x): the 2N bytes of a ring element (00_scope.md R15). -/
def ser (x : RingElem) : Vec Byte Config.RING_BYTES :=
  ⟨laneBytes x.toList, (length_laneBytes x.toList).trans (congrArg (2 * ·) x.length_eq)⟩

/-- Lane `i` of the sequence whose bytes are `y`: Deser (00_scope.md R15). -/
def laneAt {n : Nat} (y : Vec Byte n) (i : Nat) : Lane := laneOf (y.nth (2 * i)) (y.nth (2 * i + 1))

/-- Deser(y): the lanes of 2N bytes (00_scope.md R15). -/
def deser (y : Vec Byte Config.RING_BYTES) : RingElem := .tab Config.N fun i => laneAt y i

/-! ### Immediates (30_encoding.md R77: unsigned, not scaled, not reduced) -/

/-- zext_16(imm12). -/
def laneOfImm (imm : BitVec 12) : Lane := BitVec.ofNat 16 imm.toNat

/-- zext_32 of a lane (41_data_movement.md R127). -/
def wordOfLane (x : Lane) : Word := BitVec.ofNat 32 x.toNat

/-! ### The addressing mode: absolute, tested before anything moves (41_data_movement.md R120, 20_memory.md R56) -/

/-- A command that moves `n` bytes at `addr`: if they do not all exist the command raises Fault(ADDR_RANGE), FCMD being
its own word `w`, and does nothing else; else it has the effect `act` and retires with OK. -/
def transfer (w : Word) (addr : Addr) (n : Nat) (act : State → State) (s : State) :
    Host.Outcome State Fault Refusal :=
  if InRange addr.toNat n then .next ((act s).retire .ok) else .next (s.raiseFault .addrRange w)

/-- A buffer whose first `len` entries are loaded from operand memory at `addr`, two little-endian bytes each; the
others keep their values (42_sketch_codec.md R152, R156). -/
def loadEntries (s : State) (addr len : Nat) (old : Vec Lane Config.SKCAP) : Vec Lane Config.SKCAP :=
  .tab Config.SKCAP fun j =>
    if j < len then laneOf (s.readByte (addr + 2 * j)) (s.readByte (addr + 2 * j + 1)) else old.nth j

/-- The bytes of the first `len` entries of a buffer (42_sketch_codec.md R153, R157). -/
def entryBytes (len : Nat) (v : Vec Lane Config.SKCAP) : List Byte := laneBytes (v.toList.take len)

end Sys2Proof.Machine
end

