-- ==== Sys2Proof/Machine/Ring.lean ====
section
/-! DEFINITION. Ring arithmetic commands (40_ring_arith.md): each computes on exact integers and takes the Euclidean
residue modulo Q (00_scope.md R12, R106 of 40_ring_arith.md). -/

namespace Sys2Proof.Machine

open Sys2Proof

/-- `v mod Q`, the residue in [0, Q), as a lane (00_scope.md R12). -/
def laneOfResidue (v : Int) : Lane := BitVec.ofNat 16 (v % (Config.Q : Int)).toNat

/-- Lane `i` of an element as an exact integer. -/
def coeff (x : RingElem) (i : Nat) : Nat := (x.nth i).toNat

/-! ### The operations on elements -/

/-- Coefficient-wise sum (40_ring_arith.md R100). -/
def ringAdd (x y : RingElem) : RingElem :=
  .tab Config.N fun i => laneOfResidue ((coeff x i : Int) + coeff y i)

/-- Coefficient-wise difference (40_ring_arith.md R101). -/
def ringSub (x y : RingElem) : RingElem :=
  .tab Config.N fun i => laneOfResidue ((coeff x i : Int) - coeff y i)

/-- `conv[k]`: the sum of `x[j] * y[m]` over the pairs of indices below N with `j + m = k`. For `k = 2N-1` there is no
such pair and it is 0 (40_ring_arith.md R102, 90_conflicts.md C1). -/
def conv (x y : RingElem) (k : Nat) : Nat :=
  sumTo Config.N fun j => if j ≤ k ∧ k - j < Config.N then coeff x j * coeff y (k - j) else 0

/-- The product modulo X^N + 1 and Q (40_ring_arith.md R102). -/
def ringMul (x y : RingElem) : RingElem :=
  .tab Config.N fun i => laneOfResidue ((conv x y i : Int) - conv x y (i + Config.N))

/-- Every lane reduced modulo Q (40_ring_arith.md R103). -/
def ringReduce (x : RingElem) : RingElem := .tab Config.N fun i => laneOfResidue (coeff x i)

/-- Gen(seed, domain) (00_scope.md R17). -/
def gen (seed : Seed) (domain : Byte) : RingElem :=
  .tab Config.N fun i => laneOfResidue (Config.GenWide seed domain i)

/-! ### The commands -/

/-- RADD rd, rs1, rs2 (40_ring_arith.md R100). -/
def execRadd (rd rs1 rs2 : RingReg) (s : State) : Host.Outcome State Fault Refusal :=
  .next ((s.setRing rd (ringAdd (s.ringReg rs1) (s.ringReg rs2))).retire .ok)

/-- RSUB rd, rs1, rs2 (40_ring_arith.md R101). -/
def execRsub (rd rs1 rs2 : RingReg) (s : State) : Host.Outcome State Fault Refusal :=
  .next ((s.setRing rd (ringSub (s.ringReg rs1) (s.ringReg rs2))).retire .ok)

/-- RMUL rd, rs1, rs2 (40_ring_arith.md R102). -/
def execRmul (rd rs1 rs2 : RingReg) (s : State) : Host.Outcome State Fault Refusal :=
  .next ((s.setRing rd (ringMul (s.ringReg rs1) (s.ringReg rs2))).retire .ok)

/-- RRED rd (40_ring_arith.md R103). -/
def execRred (rd : RingReg) (s : State) : Host.Outcome State Fault Refusal :=
  .next ((s.setRing rd (ringReduce (s.ringReg rd))).retire .ok)

/-- REQ rs1, rs2: the stored lanes are compared, not their residues; two elements are the same data exactly when all N
stored lanes are (40_ring_arith.md R104). -/
def execReq (rs1 rs2 : RingReg) (s : State) : Host.Outcome State Fault Refusal :=
  .next ((s.setRval (if s.ringReg rs1 = s.ringReg rs2 then 1 else 0)).retire .ok)

/-- RGEN rd, ss, domain (40_ring_arith.md R105). -/
def execRgen (rd : RingReg) (ss : SeedReg) (domain : Byte) (s : State) : Host.Outcome State Fault Refusal :=
  .next ((s.setRing rd (gen (s.seedReg ss) domain)).retire .ok)

end Sys2Proof.Machine
end

