-- ==== Sys2Proof/Machine/Codec.lean ====
section
/-! DEFINITION. Sketch codec commands (42_sketch_codec.md). -/

namespace Sys2Proof.Machine

open Sys2Proof

/-! ### The pipeline stages (42_sketch_codec.md R140) -/

/-- Decimate(b), in the first N/2 entries of the anchor buffer; the others keep their values (R141, corner case 3). -/
def decimate (b : RingElem) (old : Vec Lane Config.SKCAP) : Vec Lane Config.SKCAP :=
  .tab Config.SKCAP fun i => if i < Config.HALF then b.nth (2 * i) else old.nth i

/-- Parity(b), in the first N/2 entries of the parity buffer; the others keep their values. -/
def parityOf (b : RingElem) (old : Vec Lane Config.SKCAP) : Vec Lane Config.SKCAP :=
  .tab Config.SKCAP fun i =>
    if i < Config.HALF then laneOfResidue ((coeff b (2 * i) : Int) + coeff b (2 * i + 1)) else old.nth i

/-- Reconstruct(anchor, parity): even lanes are the anchors as they are, odd lanes `(parity + Q - anchor) mod Q`. -/
def reconstruct (anchor parity : Vec Lane Config.SKCAP) : RingElem :=
  .tab Config.N fun k =>
    if k % 2 = 0 then anchor.nth (k / 2)
    else laneOfResidue (((parity.nth (k / 2)).toNat : Int) + Config.Q - (anchor.nth (k / 2)).toNat)

/-- Chk(b) = Checksum8(Ser(b)) (R140, 00_scope.md R10). -/
def chkOf (b : RingElem) : Chk := .tab Config.CHK_BYTES fun j => Config.checksumByte (ser b) j

/-! ### Codec commands -/

/-- COMPRESS ra, rb, ss: R[ra] is named and not read (42_sketch_codec.md R141). -/
def execCompress (_ra rb : RingReg) (ss : SeedReg) (s : State) : Host.Outcome State Fault Refusal :=
  let b := s.ringReg rb
  .next ((s.setSketch
    { seed   := s.seedReg ss
      alen   := BitVec.ofNat 8 Config.HALF
      anchor := decimate b s.sk.anchor
      chk    := chkOf b
      plen   := BitVec.ofNat 8 Config.HALF
      parity := parityOf b s.sk.parity }).retire .ok)

/-- DECOMPRESS rda, rdb: the length test, then the checksum test, then the two registers (42_sketch_codec.md R142). With
rda = rdb no word encodes it (30_encoding.md R72): as an illegal command it raises ILLEGAL_CMD. -/
def execDecompress (rda rdb : RingReg) (s : State) : Host.Outcome State Fault Refusal :=
  let a := gen s.sk.seed 0
  let b := reconstruct s.sk.anchor s.sk.parity
  if rda = rdb then .next (s.raiseFault .illegalCmd (encode (.decompress rda rdb)))
  else if s.sk.alen.toNat ≠ Config.HALF ∨ s.sk.plen.toNat ≠ Config.HALF then .next (s.retire .invalidInput)
  else if chkOf b ≠ s.sk.chk then .next (s.retire .checksumMismatch)
  else .next (((s.setRing rda a).setRing rdb b).retire .ok)

/-- KSIZE: 2 * N * 2 (42_sketch_codec.md R143). -/
def execKsize (s : State) : Host.Outcome State Fault Refusal :=
  .next ((s.setRval (BitVec.ofNat 32 (2 * Config.N * 2))).retire .ok)

/-- SKSIZE: 32 + 2 * ALEN + 8 + 2 * PLEN (42_sketch_codec.md R144). -/
def execSksize (s : State) : Host.Outcome State Fault Refusal :=
  .next ((s.setRval (BitVec.ofNat 32 (32 + 2 * s.sk.alen.toNat + 8 + 2 * s.sk.plen.toNat))).retire .ok)

/-! ### Sketch field transfer commands -/

/-- SKLDS addr (42_sketch_codec.md R150). -/
def execSklds (addr : Addr) (s : State) : Host.Outcome State Fault Refusal :=
  transfer (encode (.sklds addr)) addr 32
    (fun s => s.setSketch { s.sk with seed := s.memRead addr.toNat 32 }) s

/-- SKSTS addr (42_sketch_codec.md R151). -/
def execSksts (addr : Addr) (s : State) : Host.Outcome State Fault Refusal :=
  transfer (encode (.sksts addr)) addr 32 (fun s => s.memWrite addr.toNat s.sk.seed.toList) s

/-- SKLDA addr, len (42_sketch_codec.md R152). -/
def execSklda (addr : Addr) (len : BitVec 8) (s : State) : Host.Outcome State Fault Refusal :=
  transfer (encode (.sklda addr len)) addr (2 * len.toNat)
    (fun s => s.setSketch
      { s.sk with anchor := loadEntries s addr.toNat len.toNat s.sk.anchor, alen := len }) s

/-- SKSTA addr: exactly 2 * ALEN bytes (42_sketch_codec.md R153). -/
def execSksta (addr : Addr) (s : State) : Host.Outcome State Fault Refusal :=
  transfer (encode (.sksta addr)) addr (2 * s.sk.alen.toNat)
    (fun s => s.memWrite addr.toNat (entryBytes s.sk.alen.toNat s.sk.anchor)) s

/-- SKLDC addr (42_sketch_codec.md R154). -/
def execSkldc (addr : Addr) (s : State) : Host.Outcome State Fault Refusal :=
  transfer (encode (.skldc addr)) addr 8
    (fun s => s.setSketch { s.sk with chk := s.memRead addr.toNat 8 }) s

/-- SKSTC addr (42_sketch_codec.md R155). -/
def execSkstc (addr : Addr) (s : State) : Host.Outcome State Fault Refusal :=
  transfer (encode (.skstc addr)) addr 8 (fun s => s.memWrite addr.toNat s.sk.chk.toList) s

/-- SKLDP addr, len (42_sketch_codec.md R156). -/
def execSkldp (addr : Addr) (len : BitVec 8) (s : State) : Host.Outcome State Fault Refusal :=
  transfer (encode (.skldp addr len)) addr (2 * len.toNat)
    (fun s => s.setSketch
      { s.sk with parity := loadEntries s addr.toNat len.toNat s.sk.parity, plen := len }) s

/-- SKSTP addr: exactly 2 * PLEN bytes (42_sketch_codec.md R157). -/
def execSkstp (addr : Addr) (s : State) : Host.Outcome State Fault Refusal :=
  transfer (encode (.skstp addr)) addr (2 * s.sk.plen.toNat)
    (fun s => s.memWrite addr.toNat (entryBytes s.sk.plen.toNat s.sk.parity)) s

end Sys2Proof.Machine
end

