-- ==== Sys2Proof/Machine/Data.lean ====
section
/-! DEFINITION. Data movement commands (41_data_movement.md). -/

namespace Sys2Proof.Machine

open Sys2Proof

/-- LDR rd, addr: 512 bytes, neither checked nor reduced (41_data_movement.md R121). -/
def execLdr (rd : RingReg) (addr : Addr) (s : State) : Host.Outcome State Fault Refusal :=
  transfer (encode (.ldr rd addr)) addr 512
    (fun s => s.setRing rd (deser (s.memRead addr.toNat 512))) s

/-- STR rs, addr (41_data_movement.md R122). -/
def execStr (rs : RingReg) (addr : Addr) (s : State) : Host.Outcome State Fault Refusal :=
  transfer (encode (.str rs addr)) addr 512
    (fun s => s.memWrite addr.toNat (ser (s.ringReg rs)).toList) s

/-- LDS sd, addr (41_data_movement.md R123). -/
def execLds (sd : SeedReg) (addr : Addr) (s : State) : Host.Outcome State Fault Refusal :=
  transfer (encode (.lds sd addr)) addr 32
    (fun s => s.setSeed sd (s.memRead addr.toNat 32)) s

/-- STS ss, addr (41_data_movement.md R124). -/
def execSts (ss : SeedReg) (addr : Addr) (s : State) : Host.Outcome State Fault Refusal :=
  transfer (encode (.sts ss addr)) addr 32
    (fun s => s.memWrite addr.toNat (s.seedReg ss).toList) s

/-- RZERO rd (41_data_movement.md R125). -/
def execRzero (rd : RingReg) (s : State) : Host.Outcome State Fault Refusal :=
  .next ((s.setRing rd (.tab Config.N fun _ => 0)).retire .ok)

/-- RSETL rd, idx, imm: the other lanes keep their values (41_data_movement.md R126). -/
def execRsetl (rd : RingReg) (idx : Fin 256) (imm : BitVec 12) (s : State) : Host.Outcome State Fault Refusal :=
  .next ((s.setRing rd ((s.ringReg rd).set idx (laneOfImm imm))).retire .ok)

/-- RGETL rs, idx: the stored lane (41_data_movement.md R127). -/
def execRgetl (rs : RingReg) (idx : Fin 256) (s : State) : Host.Outcome State Fault Refusal :=
  .next ((s.setRval (wordOfLane ((s.ringReg rs).get idx))).retire .ok)

end Sys2Proof.Machine
end

