-- ==== Sys2Proof/Machine/System.lean ====
section
/-! DEFINITION. System commands (43_system.md). -/

namespace Sys2Proof.Machine

/-- NOP: retires with OK and does nothing else (43_system.md R170). -/
def execNop (s : State) : Host.Outcome State Fault Refusal := .next (s.retire .ok)

/-- CLRERR: ESTICKY <- 0, then it retires with OK (43_system.md R171). -/
def execClrerr (s : State) : Host.Outcome State Fault Refusal := .next (s.clearSticky.retire .ok)

end Sys2Proof.Machine
end

