-- ==== Sys2Proof/Machine/Dispatch.lean ====
section
/-! DEFINITION. The effect of each command on a unit that accepts it: one arm per constructor of Instr. -/

namespace Sys2Proof.Machine

open Sys2Proof

def exec (i : Instr) (s : State) : Host.Outcome State Fault Refusal :=
  match i with
  | .nop => Sys2Proof.Machine.execNop s
  | .clrerr => Sys2Proof.Machine.execClrerr s
  | .radd rd rs1 rs2 => Sys2Proof.Machine.execRadd rd rs1 rs2 s
  | .rsub rd rs1 rs2 => Sys2Proof.Machine.execRsub rd rs1 rs2 s
  | .rmul rd rs1 rs2 => Sys2Proof.Machine.execRmul rd rs1 rs2 s
  | .rred rd => Sys2Proof.Machine.execRred rd s
  | .req rs1 rs2 => Sys2Proof.Machine.execReq rs1 rs2 s
  | .rgen rd ss domain => Sys2Proof.Machine.execRgen rd ss domain s
  | .ldr rd addr => Sys2Proof.Machine.execLdr rd addr s
  | .str rs addr => Sys2Proof.Machine.execStr rs addr s
  | .lds sd addr => Sys2Proof.Machine.execLds sd addr s
  | .sts ss addr => Sys2Proof.Machine.execSts ss addr s
  | .rzero rd => Sys2Proof.Machine.execRzero rd s
  | .rsetl rd idx imm => Sys2Proof.Machine.execRsetl rd idx imm s
  | .rgetl rs idx => Sys2Proof.Machine.execRgetl rs idx s
  | .compress ra rb ss => Sys2Proof.Machine.execCompress ra rb ss s
  | .decompress rda rdb => Sys2Proof.Machine.execDecompress rda rdb s
  | .ksize => Sys2Proof.Machine.execKsize s
  | .sksize => Sys2Proof.Machine.execSksize s
  | .sklds addr => Sys2Proof.Machine.execSklds addr s
  | .sksts addr => Sys2Proof.Machine.execSksts addr s
  | .sklda addr len => Sys2Proof.Machine.execSklda addr len s
  | .sksta addr => Sys2Proof.Machine.execSksta addr s
  | .skldc addr => Sys2Proof.Machine.execSkldc addr s
  | .skstc addr => Sys2Proof.Machine.execSkstc addr s
  | .skldp addr len => Sys2Proof.Machine.execSkldp addr len s
  | .skstp addr => Sys2Proof.Machine.execSkstp addr s

end Sys2Proof.Machine
end

