-- ==== Sys2Proof/Machine/Control.lean ====
section
/-! DEFINITION. The control space, issuing a command, and the actions of the host (10_state.md R27 to R39;
30_encoding.md R71; 70_reset_and_hazards.md R215). -/

namespace Sys2Proof.Machine

open Sys2Proof

/-- The control register at a byte offset; every other offset is unassigned (10_state.md R27, R39). -/
def CtrlReg.atOffset (off : Nat) : Option CtrlReg :=
  match off with
  | 0x00 => some .cmd
  | 0x04 => some .status
  | 0x08 => some .result
  | 0x0C => some .esticky
  | 0x10 => some .rval
  | 0x14 => some .cmdcnt
  | 0x18 => some .fcause
  | 0x1C => some .fcmd
  | 0x20 => some .skAlen
  | 0x24 => some .skPlen
  | 0x28 => some .paramN
  | 0x2C => some .paramQ
  | 0x30 => some .ctrl
  | 0x34 => some .version
  | _ => none

/-- What a host read of the register returns (10_state.md R28 to R38): CMD and CTRL hold no state and read 0. -/
def CtrlReg.value (s : State) : CtrlReg → Word
  | .cmd => 0
  | .status => s.status
  | .result => s.result
  | .esticky => s.esticky
  | .rval => s.rval
  | .cmdcnt => s.cmdcnt
  | .fcause => s.fcause
  | .fcmd => s.fcmd
  | .skAlen => BitVec.ofNat 32 s.sk.alen.toNat
  | .skPlen => BitVec.ofNat 32 s.sk.plen.toNat
  | .paramN => BitVec.ofNat 32 Config.N
  | .paramQ => BitVec.ofNat 32 Config.Q
  | .ctrl => 0
  | .version => BitVec.ofNat 32 Config.VERSION

/-- What a host read at a byte offset returns: 0 at an unassigned one (10_state.md R39). -/
def State.readCtrl (s : State) (off : Nat) : Word :=
  match CtrlReg.atOffset off with
  | some r => r.value s
  | none => 0

/-- Issue(W), a host write of `w` to CMD: dropped while faulted; else an illegal word raises ILLEGAL_CMD and a command
is executed (30_encoding.md R71, 60_exceptions.md R192, R193). -/
def issue (w : Word) (s : State) : Host.Outcome State Fault Refusal :=
  if s.faulted then .next s
  else
    match decodeWord w with
    | .illegal _ => .next (s.raiseFault .illegalCmd w)
    | .command i => exec i s

/-- A host write of `w` at a byte offset: CMD issues, CTRL with bit 0 set resets, every other write changes nothing
(10_state.md R27, R28, R38, R39). -/
def writeCtrl (off : Nat) (w : Word) (s : State) : Host.Outcome State Fault Refusal :=
  match CtrlReg.atOffset off with
  | some .cmd => issue w s
  | some .ctrl => if w.getLsbD 0 then .next s.resetUnit else .next s
  | _ => .next s

/-- What a host read got back is recorded; nothing else changes (10_state.md R27, 20_memory.md R57). -/
def State.reply (s : State) (r : HostReply) : State :=
  { s with host := { s.host with replies := r :: s.host.replies } }

/-- One action of the host, wholly before the next (20_memory.md R58, R61; 70_reset_and_hazards.md R215). -/
def perform (a : HostAction) (s : State) : Host.Outcome State Fault Refusal :=
  match a with
  | .writeMem addr v => .next (s.memWrite addr.toNat [v])
  | .readMem addr => .next (s.reply (.memByte addr (s.readByte addr.toNat)))
  | .readCtrl off => .next (s.reply (.ctrlWord off (s.readCtrl off)))
  | .writeCtrl off w => writeCtrl off w s
  | .resetInput => .next s.resetUnit

/-- The host's queue is `q`. -/
def State.withPending (s : State) (q : List HostAction) : State := { s with host := { s.host with pending := q } }

/-- One step: the host's next action; with none pending the unit holds its state (60_exceptions.md R205,
70_reset_and_hazards.md R215: the unit never acts on its own). -/
def hostStep (s : State) : Host.Outcome State Fault Refusal :=
  match s.host.pending with
  | [] => .next s
  | a :: q => perform a (s.withPending q)

/-- The host actions that run a program: one CMD write per command word, in order (30_encoding.md R70). -/
def issueAll (is : List Instr) : List HostAction := is.map fun i => .writeCtrl 0x00 (encode i)

end Sys2Proof.Machine
end

