-- ==== Sys2Proof/Machine/Step.lean ====
section
/-! DEFINITION. The step, and how a command word is put before it. -/

namespace Sys2Proof.Machine

open Sys2Proof

/-- One step of the machine: the next action of the host (20_memory.md R61). -/
def step (s : State) : Host.Outcome State Fault Refusal := hostStep s

/-- LC-CORE fetches nothing: the host supplies each command by a write to CMD (10_state.md R23, R28). So the word stands
where the step takes its next command when a CMD write of it is the host's next action. Assumption log 1. -/
def State.withFetchWord (s : State) (nbits w : Nat) : State :=
  s.withPending (.writeCtrl 0x00 (BitVec.ofNat 32 (w % 2 ^ nbits)) :: s.host.pending)

end Sys2Proof.Machine
end

