-- ==== Sys2Proof/Machine/Assembler.lean ====
section
/-! DEFINITION. The assembler syntax (30_encoding.md R81, R86): one line of text to the commands it stands for. It is no
part of the machine; programs of 95_test_vectors.md are written in it. A line is a list of characters. -/

namespace Sys2Proof.Machine

open Sys2Proof

/-- A line of text, or a part of one. -/
abbrev Text := List Char

/-- Characters that separate. -/
def isBlank (c : Char) : Bool := c == ' ' || c == '\t'

/-- The text without the blanks around it. -/
def trim (t : Text) : Text := ((t.dropWhile isBlank).reverse.dropWhile isBlank).reverse

/-- A `;` starts a comment that runs to the end of the line. -/
def stripComment (t : Text) : Text := t.takeWhile (· != ';')

/-- The parts between commas. -/
def splitComma : Text → List Text
  | [] => [[]]
  | c :: cs =>
    if c = ',' then [] :: splitComma cs
    else
      match splitComma cs with
      | [] => [[c]]
      | t :: ts => (c :: t) :: ts

/-- The value of a decimal digit. -/
def decDigit (c : Char) : Option Nat :=
  if '0' ≤ c ∧ c ≤ '9' then some (c.toNat - 48) else none

/-- The value of a hexadecimal digit, of either case. Assumption log 7. -/
def hexDigit (c : Char) : Option Nat :=
  if '0' ≤ c ∧ c ≤ '9' then some (c.toNat - 48)
  else if 'A' ≤ c ∧ c ≤ 'F' then some (c.toNat - 55)
  else if 'a' ≤ c ∧ c ≤ 'f' then some (c.toNat - 87)
  else none

/-- The number a string of digits writes in a base, after `acc`. -/
def digitsFrom (base : Nat) (digit : Char → Option Nat) : Nat → Text → Option Nat
  | acc, [] => some acc
  | acc, c :: cs =>
    match digit c with
    | some d => digitsFrom base digit (acc * base + d) cs
    | none => none

/-- An unsigned number, decimal or `0x` hexadecimal. -/
def number : Text → Option Nat
  | [] => none
  | '0' :: 'x' :: c :: cs => digitsFrom 16 hexDigit 0 (c :: cs)
  | c :: cs => digitsFrom 10 decDigit 0 (c :: cs)

/-- A number that fits a field of `w` bits; the assembler refuses one that does not. -/
def field (w : Nat) (t : Text) : Option (BitVec w) :=
  match number t with
  | some k => if k < 2 ^ w then some (BitVec.ofNat w k) else none
  | none => none

/-- A register: its letter and 0 to 15, with no leading zero; a register number above 15 is refused. -/
def register (letter : Char) : Text → Option (Fin 16)
  | l :: d :: ds =>
    if l = letter ∧ (d ≠ '0' ∨ ds = []) then
      match digitsFrom 10 decDigit 0 (d :: ds) with
      | some k => if h : k < 16 then some ⟨k, h⟩ else none
      | none => none
    else none
  | _ => none

/-- `R0` to `R15`. -/
def ringOperand : Text → Option RingReg := register 'R'
/-- `S0` to `S15`. -/
def seedOperand : Text → Option SeedReg := register 'S'
/-- addr. -/
def addrOperand : Text → Option Addr := field 16
/-- len or domain. -/
def byteOperand : Text → Option (BitVec 8) := field 8
/-- imm. -/
def immOperand : Text → Option (BitVec 12) := field 12
/-- idx. -/
def idxOperand (t : Text) : Option (Fin 256) := (field 8 t).map BitVec.toFin

/-- The commands a mnemonic and its operands stand for, in R78's order of operands; RONE stands for two (R86). -/
def commandOf (mnemonic : String) (ops : List Text) : Option (List Instr) :=
  match mnemonic, ops with
  | "NOP", [] => some [.nop]
  | "CLRERR", [] => some [.clrerr]
  | "RADD", [d, x, y] => do return [.radd (← ringOperand d) (← ringOperand x) (← ringOperand y)]
  | "RSUB", [d, x, y] => do return [.rsub (← ringOperand d) (← ringOperand x) (← ringOperand y)]
  | "RMUL", [d, x, y] => do return [.rmul (← ringOperand d) (← ringOperand x) (← ringOperand y)]
  | "RRED", [d] => do return [.rred (← ringOperand d)]
  | "REQ", [x, y] => do return [.req (← ringOperand x) (← ringOperand y)]
  | "RGEN", [d, s, t] => do return [.rgen (← ringOperand d) (← seedOperand s) (← byteOperand t)]
  | "LDR", [d, a] => do return [.ldr (← ringOperand d) (← addrOperand a)]
  | "STR", [d, a] => do return [.str (← ringOperand d) (← addrOperand a)]
  | "LDS", [d, a] => do return [.lds (← seedOperand d) (← addrOperand a)]
  | "STS", [d, a] => do return [.sts (← seedOperand d) (← addrOperand a)]
  | "RZERO", [d] => do return [.rzero (← ringOperand d)]
  | "RSETL", [d, i, v] => do return [.rsetl (← ringOperand d) (← idxOperand i) (← immOperand v)]
  | "RGETL", [d, i] => do return [.rgetl (← ringOperand d) (← idxOperand i)]
  | "COMPRESS", [x, y, s] => do return [.compress (← ringOperand x) (← ringOperand y) (← seedOperand s)]
  | "DECOMPRESS", [x, y] => do
    let i := Instr.decompress (← ringOperand x) (← ringOperand y)
    if i.wellFormed then return [i] else none
  | "KSIZE", [] => some [.ksize]
  | "SKSIZE", [] => some [.sksize]
  | "SKLDS", [a] => do return [.sklds (← addrOperand a)]
  | "SKSTS", [a] => do return [.sksts (← addrOperand a)]
  | "SKLDA", [a, n] => do return [.sklda (← addrOperand a) (← byteOperand n)]
  | "SKSTA", [a] => do return [.sksta (← addrOperand a)]
  | "SKLDC", [a] => do return [.skldc (← addrOperand a)]
  | "SKSTC", [a] => do return [.skstc (← addrOperand a)]
  | "SKLDP", [a, n] => do return [.skldp (← addrOperand a) (← byteOperand n)]
  | "SKSTP", [a] => do return [.skstp (← addrOperand a)]
  | "RONE", [d] => do return Instr.rone (← ringOperand d)
  | _, _ => none

/-- The operands written after a mnemonic, separated by commas. -/
def operandsOf (t : Text) : List Text :=
  match trim t with
  | [] => []
  | c :: cs => (splitComma (c :: cs)).map trim

/-- The commands one line stands for: none if it is blank or a comment. -/
def assembleLine (line : Text) : Option (List Instr) :=
  match trim (stripComment line) with
  | [] => some []
  | c :: cs =>
    commandOf (String.ofList ((c :: cs).takeWhile (fun d => !isBlank d)))
      (operandsOf ((c :: cs).dropWhile (fun d => !isBlank d)))

/-- The commands of a program, line by line; refused as a whole if a line is. -/
def assemble : List Text → Option (List Instr)
  | [] => some []
  | l :: ls => do return (← assembleLine l) ++ (← assemble ls)

end Sys2Proof.Machine
end

