-- ==== Sys2Proof/Machine/Table.lean ====
section
/-! DEFINITION. The opcode table and the formats' match masks as data (30_encoding.md R76, R78), beside the decoder: what
claims about encodings are stated in. -/

namespace Sys2Proof

/-- The match mask of a format: a 1 is a bit Decode compares with the match value (30_encoding.md R76). -/
def CmdFormat.mask : CmdFormat → Word
  | .z => 0xFFFFFFFF
  | .r3 => 0xFF000FFF
  | .r2 => 0xFF00FFFF
  | .r1 => 0xFF0FFFFF
  | .g => 0xFF00FF00
  | .m => 0xFF0F0000
  | .a => 0xFFFF0000
  | .l => 0xFF000000
  | .i => 0xFF000000
  | .x => 0xFF000FFF

/-- The 27 rows of 30_encoding.md R78: opcode and format. -/
def opcodeTable : List (Nat × CmdFormat) :=
  [(0x00, .z), (0x01, .z)] ++
  [(0x10, .r3), (0x11, .r3), (0x12, .r3), (0x13, .r1), (0x14, .r2), (0x15, .g)] ++
  [(0x20, .m), (0x21, .m), (0x22, .m), (0x23, .m), (0x24, .r1), (0x25, .i), (0x26, .x)] ++
  [(0x30, .r3), (0x31, .r2), (0x32, .z), (0x33, .z)] ++
  [(0x38, .a), (0x39, .a), (0x3A, .l), (0x3B, .a), (0x3C, .a), (0x3D, .a), (0x3E, .l), (0x3F, .a)]

/-- The match value of an opcode, `op << 24` (30_encoding.md R76). -/
def matchValue (op : Nat) : Word := BitVec.ofNat 32 (op * 2 ^ 24)

/-- The row of a command. -/
def Instr.row : Instr → Nat × CmdFormat
  | .nop => (0x00, .z)
  | .clrerr => (0x01, .z)
  | .radd _ _ _ => (0x10, .r3)
  | .rsub _ _ _ => (0x11, .r3)
  | .rmul _ _ _ => (0x12, .r3)
  | .rred _ => (0x13, .r1)
  | .req _ _ => (0x14, .r2)
  | .rgen _ _ _ => (0x15, .g)
  | .ldr _ _ => (0x20, .m)
  | .str _ _ => (0x21, .m)
  | .lds _ _ => (0x22, .m)
  | .sts _ _ => (0x23, .m)
  | .rzero _ => (0x24, .r1)
  | .rsetl _ _ _ => (0x25, .i)
  | .rgetl _ _ => (0x26, .x)
  | .compress _ _ _ => (0x30, .r3)
  | .decompress _ _ => (0x31, .r2)
  | .ksize => (0x32, .z)
  | .sksize => (0x33, .z)
  | .sklds _ => (0x38, .a)
  | .sksts _ => (0x39, .a)
  | .sklda _ _ => (0x3A, .l)
  | .sksta _ => (0x3B, .a)
  | .skldc _ => (0x3C, .a)
  | .skstc _ => (0x3D, .a)
  | .skldp _ _ => (0x3E, .l)
  | .skstp _ => (0x3F, .a)

end Sys2Proof
end

