-- ==== Sys2Proof/Safety.lean ====
section
/-! DEFINITION. What claims about runs are stated in: the invariant of the state, the coefficient range, and the good
end of a run. -/

namespace Sys2Proof.Machine

open Sys2Proof

/-- Every lane lies in [0, Q) (00_scope.md R18). -/
def Normalised (x : RingElem) : Prop := ∀ i < Config.N, (x.nth i).toNat < Config.Q

/-- The invariant of the state between commands (10_state.md R44, with the reserved bits of R29 to R31 and R33, the
range of R32, FCMD of R34, and the canonical form of memory). -/
structure State.Inv (s : State) : Prop where
  /-- STATUS bits 31:1 are 0 (R29). -/
  status_bit : s.status = 0 ∨ s.status = 1
  /-- RESULT is 0, 1 or 2 (R30, R44). -/
  result_code : s.result.toNat < 3
  /-- Only ESTICKY bits 1 and 2 are ever set (R31). -/
  esticky_bits : s.esticky &&& ~~~(6#32) = 0
  /-- An error in RESULT stands in ESTICKY too (R31: no error is silently swallowed). -/
  error_recorded : s.result ≠ 0 → s.esticky.getLsbD s.result.toNat = true
  /-- RVAL is a lane, a size or a truth value (R32). -/
  rval_range : s.rval.toNat < 65536
  /-- FCAUSE is 0, 1 or 2 (R33, R44). -/
  fcause_code : s.fcause.toNat < 3
  /-- STATUS.FAULT = 1 exactly when FCAUSE.CAUSE is not 0 (R44). -/
  fault_cause : s.status = 1 ↔ s.fcause ≠ 0
  /-- FCMD is 0 while nothing has faulted (R34). -/
  fcmd_zero : s.status = 0 → s.fcmd = 0
  /-- Operand memory is in canonical form. -/
  omem_wf : s.omem.wf

/-- A good end of a run: STATUS.FAULT = 0 (70_reset_and_hazards.md R216). -/
def State.Good (s : State) : Prop := s.faulted = false

/-- From `s`, `k` steps end well. -/
def GoodRun (k : Nat) (s : State) : Prop := ∃ t, Host.Core.run core k s = .next t ∧ State.Good t

end Sys2Proof.Machine
end

