-- ==== Sys2Proof/Certificates/Slice0/Obligations.lean ====
section
/-! DEFINITION. The statements for the provers. Each says in observable terms (bytes, lanes, registers as numbers) what a
rule of the spec says a command or the machine does. -/

namespace Sys2Proof.Claims

open Sys2Proof Sys2Proof.Machine

/-! ### What is observed -/

/-- Lane `i` of R[r] as a number. -/
def lane (s : State) (r : RingReg) (i : Nat) : Nat := ((s.ringReg r).nth i).toNat

/-- A byte of operand memory as a number. -/
def byteAt (s : State) (a : Nat) : Nat := (s.readByte a).toNat

/-- Every ring register but those listed keeps its value. -/
def RingsKept (ex : List RingReg) (s t : State) : Prop := ∀ r, r ∉ ex → t.ringReg r = s.ringReg r

/-- Every seed register but those listed keeps its value. -/
def SeedsKept (ex : List SeedReg) (s t : State) : Prop := ∀ k, k ∉ ex → t.seedReg k = s.seedReg k

/-- Every byte of operand memory reads as before. -/
def MemKept (s t : State) : Prop := ∀ p, t.readByte p = s.readByte p

/-- Every byte outside the `n` bytes at `a` reads as before. -/
def MemKeptOutside (a n : Nat) (s t : State) : Prop := ∀ p, p < a ∨ a + n ≤ p → t.readByte p = s.readByte p

/-- Retirement with code `c` (30_encoding.md R73): RESULT is the code, the sticky bit of an error is set and no sticky
bit is cleared, CMDCNT is one more modulo 2^32; the fault registers and the host are as before. -/
structure Retired (c : Nat) (s t : State) : Prop where
  result  : t.result.toNat = c
  sticky  : ∀ k < 32, t.esticky.getLsbD k = (s.esticky.getLsbD k || decide (c ≠ 0 ∧ k = c))
  count   : t.cmdcnt.toNat = (s.cmdcnt.toNat + 1) % 2 ^ 32
  status  : t.status = s.status
  fcause  : t.fcause = s.fcause
  fcmd    : t.fcmd = s.fcmd
  host    : t.host = s.host
  epoch   : t.epoch = s.epoch

/-- Fault entry with cause number `c` for the command word `w` (60_exceptions.md R190): three registers are written, and
everything else is as before. -/
structure FaultEntered (c : Nat) (w : Word) (s t : State) : Prop where
  status  : t.status.toNat = 1
  fcause  : t.fcause.toNat = c
  fcmd    : t.fcmd = w
  ring    : t.ring = s.ring
  seeds   : t.seeds = s.seeds
  sk      : t.sk = s.sk
  cmdcnt  : t.cmdcnt = s.cmdcnt
  result  : t.result = s.result
  esticky : t.esticky = s.esticky
  rval    : t.rval = s.rval
  omem    : t.omem = s.omem
  epoch   : t.epoch = s.epoch
  host    : t.host = s.host

/-- The register-to-register shape: only R[rd] is written. -/
def OnlyRing (rd : RingReg) (s t : State) : Prop :=
  RingsKept [rd] s t ∧ SeedsKept [] s t ∧ t.sk = s.sk ∧ t.rval = s.rval ∧ MemKept s t

/-- The shape of a scalar result: only RVAL is written. -/
def OnlyRval (s t : State) : Prop :=
  RingsKept [] s t ∧ SeedsKept [] s t ∧ t.sk = s.sk ∧ MemKept s t

/-- The shape of a store of `n` bytes at `a`: only those bytes are written. -/
def OnlyBytes (a n : Nat) (s t : State) : Prop :=
  RingsKept [] s t ∧ SeedsKept [] s t ∧ t.sk = s.sk ∧ t.rval = s.rval ∧ MemKeptOutside a n s t

/-- The shape of a load into the sketch register: of all but SK, nothing is written. -/
def OnlySketch (s t : State) : Prop :=
  RingsKept [] s t ∧ SeedsKept [] s t ∧ t.rval = s.rval ∧ MemKept s t

/-- Nothing but what retirement writes. -/
def NothingWritten (s t : State) : Prop :=
  RingsKept [] s t ∧ SeedsKept [] s t ∧ t.sk = s.sk ∧ t.rval = s.rval ∧ MemKept s t

/-- `n` bytes at `a` all exist (20_memory.md R56). -/
def Fits (a n : Nat) : Prop := n = 0 ∨ a + n ≤ 65536

/-- `y` is the byte form of the element `x`: two bytes per lane, little-endian, in index order (00_scope.md R15). -/
def IsSer (y : Vec Byte 512) (x : RingElem) : Prop :=
  ∀ i < 256, (y.nth (2 * i)).toNat = (x.nth i).toNat % 256 ∧ (y.nth (2 * i + 1)).toNat = (x.nth i).toNat / 256

/-- `b` is what DECOMPRESS reconstructs from the sketch `k` (42_sketch_codec.md R140). -/
def IsReconstructed (k : Sketch) (b : RingElem) : Prop :=
  ∀ i < 128, b.nth (2 * i) = k.anchor.nth i ∧
    ((b.nth (2 * i + 1)).toNat : Int) = (((k.parity.nth i).toNat : Int) + 3329 - (k.anchor.nth i).toNat) % 3329

/-- Two elements have the same checksum (42_sketch_codec.md R140). -/
def SameChecksum (x y : RingElem) : Prop :=
  ∀ j < 8, Config.checksumByte (ser x) j = Config.checksumByte (ser y) j

/-! ### Encodings -/

/-- The words 30_encoding.md R72 accepts: a row's opcode and must-be-zero bits, and not DECOMPRESS with a = b. -/
def Legal (w : Word) : Prop :=
  (∃ row ∈ opcodeTable, w &&& row.2.mask = matchValue row.1) ∧
    ¬ (w.extractLsb' 24 8 = 0x31#8 ∧ w.extractLsb' 20 4 = w.extractLsb' 16 4)

/-- A register number is the four bits from `lo` up. -/
def RegAt (w : Word) (lo : Nat) (r : Fin 16) : Prop := r.val = (w.extractLsb' lo 4).toNat

/-- A command's operands are the word's fields (30_encoding.md R75, R77 and the operand column of R78). -/
def OperandsOf (w : Word) : Instr → Prop
  | .nop | .clrerr | .ksize | .sksize => True
  | .radd x y z | .rsub x y z | .rmul x y z | .compress x y z => RegAt w 20 x ∧ RegAt w 16 y ∧ RegAt w 12 z
  | .rred x | .rzero x => RegAt w 20 x
  | .req x y | .decompress x y => RegAt w 20 x ∧ RegAt w 16 y
  | .rgen x y d => RegAt w 20 x ∧ RegAt w 16 y ∧ d = w.extractLsb' 0 8
  | .ldr x a | .str x a | .lds x a | .sts x a => RegAt w 20 x ∧ a = w.extractLsb' 0 16
  | .rsetl x i v => RegAt w 20 x ∧ i.val = (w.extractLsb' 12 8).toNat ∧ v = w.extractLsb' 0 12
  | .rgetl x i => RegAt w 20 x ∧ i.val = (w.extractLsb' 12 8).toNat
  | .sklds a | .sksts a | .sksta a | .skldc a | .skstc a | .skstp a => a = w.extractLsb' 0 16
  | .sklda a n | .skldp a n => a = w.extractLsb' 0 16 ∧ n = w.extractLsb' 16 8

/-! ### Tables over all commands -/

/-- Address and number of the bytes a command moves (20_memory.md R55). -/
def moved (s : State) : Instr → Option (Nat × Nat)
  | .ldr _ a | .str _ a => some (a.toNat, 512)
  | .lds _ a | .sts _ a | .sklds a | .sksts a => some (a.toNat, 32)
  | .skldc a | .skstc a => some (a.toNat, 8)
  | .sklda a n | .skldp a n => some (a.toNat, 2 * n.toNat)
  | .sksta a => some (a.toNat, 2 * s.sk.alen.toNat)
  | .skstp a => some (a.toNat, 2 * s.sk.plen.toNat)
  | .nop | .clrerr | .radd _ _ _ | .rsub _ _ _ | .rmul _ _ _ | .rred _ | .req _ _ | .rgen _ _ _ | .rzero _
  | .rsetl _ _ _ | .rgetl _ _ | .compress _ _ _ | .decompress _ _ | .ksize | .sksize => none

/-- The commands that move bytes from a register to operand memory (20_memory.md R55, direction). -/
def isStore : Instr → Bool
  | .str _ _ | .sts _ _ | .sksts _ | .sksta _ | .skstc _ | .skstp _ => true
  | .nop | .clrerr | .radd _ _ _ | .rsub _ _ _ | .rmul _ _ _ | .rred _ | .req _ _ | .rgen _ _ _ | .ldr _ _ | .lds _ _
  | .rzero _ | .rsetl _ _ _ | .rgetl _ _ | .compress _ _ _ | .decompress _ _ | .ksize | .sksize | .sklds _
  | .sklda _ _ | .skldc _ | .skldp _ _ => false

/-- The ring registers a command may write (10_state.md R25). -/
def ringDests : Instr → List RingReg
  | .radd d _ _ | .rsub d _ _ | .rmul d _ _ | .rred d | .rgen d _ _ | .ldr d _ | .rzero d | .rsetl d _ _ => [d]
  | .decompress d e => [d, e]
  | .nop | .clrerr | .req _ _ | .str _ _ | .lds _ _ | .sts _ _ | .rgetl _ _ | .compress _ _ _ | .ksize | .sksize
  | .sklds _ | .sksts _ | .sklda _ _ | .sksta _ | .skldc _ | .skstc _ | .skldp _ _ | .skstp _ => []

/-- The ring registers a command reads (10_state.md R25). -/
def ringSources : Instr → List RingReg
  | .radd _ x y | .rsub _ x y | .rmul _ x y | .req x y => [x, y]
  | .rred x | .str x _ | .rsetl x _ _ | .rgetl x _ => [x]
  | .compress _ b _ => [b]
  | .nop | .clrerr | .rgen _ _ _ | .ldr _ _ | .lds _ _ | .sts _ _ | .rzero _ | .decompress _ _ | .ksize | .sksize
  | .sklds _ | .sksts _ | .sklda _ _ | .sksta _ | .skldc _ | .skstc _ | .skldp _ _ | .skstp _ => []

/-- The seed registers a command writes (10_state.md R25). -/
def seedDests : Instr → List SeedReg
  | .lds d _ => [d]
  | .nop | .clrerr | .radd _ _ _ | .rsub _ _ _ | .rmul _ _ _ | .rred _ | .req _ _ | .rgen _ _ _ | .ldr _ _ | .str _ _
  | .sts _ _ | .rzero _ | .rsetl _ _ _ | .rgetl _ _ | .compress _ _ _ | .decompress _ _ | .ksize | .sksize
  | .sklds _ | .sksts _ | .sklda _ _ | .sksta _ | .skldc _ | .skstc _ | .skldp _ _ | .skstp _ => []

/-- The commands that write the sketch register (10_state.md R25). -/
def writesSketch : Instr → Bool
  | .compress _ _ _ | .sklds _ | .sklda _ _ | .skldc _ | .skldp _ _ => true
  | .nop | .clrerr | .radd _ _ _ | .rsub _ _ _ | .rmul _ _ _ | .rred _ | .req _ _ | .rgen _ _ _ | .ldr _ _ | .str _ _
  | .lds _ _ | .sts _ _ | .rzero _ | .rsetl _ _ _ | .rgetl _ _ | .decompress _ _ | .ksize | .sksize | .sksts _
  | .sksta _ | .skstc _ | .skstp _ => false

/-- The commands that write RVAL (10_state.md R32). -/
def writesRval : Instr → Bool
  | .req _ _ | .rgetl _ _ | .ksize | .sksize => true
  | .nop | .clrerr | .radd _ _ _ | .rsub _ _ _ | .rmul _ _ _ | .rred _ | .rgen _ _ _ | .ldr _ _ | .str _ _
  | .lds _ _ | .sts _ _ | .rzero _ | .rsetl _ _ _ | .compress _ _ _ | .decompress _ _ | .sklds _ | .sksts _
  | .sklda _ _ | .sksta _ | .skldc _ | .skstc _ | .skldp _ _ | .skstp _ => false

/-- The commands R218 of 70_reset_and_hazards.md calls idempotent: no destination register among the sources, or one of
RRED and RSETL. -/
def repeatable (i : Instr) : Prop :=
  (∀ r ∈ ringDests i, r ∉ ringSources i) ∨ (∃ d, i = .rred d) ∨ (∃ d k v, i = .rsetl d k v)

/-! ### The ring Z_Q[X]/(X^N + 1) -/

/-- The polynomial over Z_Q whose coefficient of X^i is lane `i` (10_state.md R21). -/
noncomputable def poly (x : RingElem) : Polynomial (ZMod 3329) :=
  ∑ i ∈ Finset.range 256, Polynomial.C ((x.nth i).toNat : ZMod 3329) * Polynomial.X ^ i

end Sys2Proof.Claims

open Sys2Proof Sys2Proof.Machine Sys2Proof.Claims

/-! ### Encoding -/

/-- Decode of encode, for every well-formed command with every operand (30_encoding.md R75 to R78). -/
def Obligations.DecodeOfEncodeIsTheCommand : Prop :=
  ∀ i : Instr, i.wellFormed = true → decode (encode i) = some i

/-- Encode of decode: the decoder drops no bit, so a word has one meaning and a meaning one word (R75 to R79). -/
def Obligations.EncodeOfDecodeIsTheWord : Prop :=
  ∀ (w : Word) (i : Instr), decode w = some i → i.wellFormed = true ∧ encode i = w

/-- Decode follows the table: a word is a command exactly when it matches a row under the row's mask and is not
DECOMPRESS with a = b; then the command is the row's, with the operands in their fields (30_encoding.md R72). -/
def Obligations.DecodeFollowsTheTable : Prop :=
  ∀ w : Word,
    (Legal w → ∃ i, decode w = some i ∧ i.row.1 = (w.extractLsb' 24 8).toNat ∧ OperandsOf w i) ∧
    (¬ Legal w → decode w = none)

/-- Words of the spec's own tables decode to the commands they stand for (30_encoding.md section 8, V-ENC, V-ILL). -/
def Obligations.WordsOfTheSpecDecode : Prop :=
  decode 0x00000000 = some .nop ∧
  decode 0x10312000 = some (.radd 3 1 2) ∧
  decode 0x159A00FF = some (.rgen 9 10 255) ∧
  decode 0x20100200 = some (.ldr 1 0x0200) ∧
  decode 0x252FFD00 = some (.rsetl 2 255 3328) ∧
  decode 0x31450000 = some (.decompress 4 5) ∧
  decode 0x3A801000 = some (.sklda 0x1000 128) ∧
  decode 0x31110000 = none ∧
  decode 0xFFFFFFFF = none

/-! ### Issuing, faults and the host -/

/-- A CMD write (30_encoding.md R71): while faulted the word is dropped; an illegal word faults; a command is executed.
The step takes the action off the host's queue and adds nothing else. -/
def Obligations.StepIssuesTheCommandWord : Prop :=
  ∀ (s : State) (w : Word) (q : List HostAction), s.host.pending = .writeCtrl 0x00 w :: q →
    (s.faulted = true → step s = .next (s.withPending q)) ∧
    (s.faulted = false → decode w = none →
      ∃ t, step s = .next t ∧ FaultEntered 1 w (s.withPending q) t) ∧
    (∀ i, s.faulted = false → decode w = some i → step s = exec i (s.withPending q))

/-- A step runs the decoded command: a word put where the step takes its next command is executed on the very state it
was put into (the model's own form of supplying a command, assumption log 1). -/
def Obligations.StepRunsTheSuppliedWord : Prop :=
  ∀ (s : State) (n : Nat) (i : Instr), s.faulted = false → decode (BitVec.ofNat 32 n) = some i →
    step (s.withFetchWord 32 n) = exec i s

/-- Every command ends in exactly one of two ways: it retires (CMDCNT is one more, the fault registers are as before) or
it faults with its own word in FCMD and CMDCNT as before (30_encoding.md R71, R73; 60_exceptions.md R190; 10_state.md R23).
By R71 an executed command can raise ADDR_RANGE only, cause 2. Cause 1 is for DECOMPRESS with two equal registers, which no
word encodes: executing it is no matter of the spec, and its fault is the model's choice (assumption log 6). -/
def Obligations.CommandRetiresOrFaults : Prop :=
  ∀ (i : Instr) (s : State), ∃ t, exec i s = .next t ∧
    ((t.cmdcnt.toNat = (s.cmdcnt.toNat + 1) % 2 ^ 32 ∧ t.result.toNat < 3 ∧
        t.status = s.status ∧ t.fcause = s.fcause ∧ t.fcmd = s.fcmd) ∨
      (∃ c, (c = 1 ∨ c = 2) ∧ FaultEntered c (encode i) s t))

/-- The range check (20_memory.md R56, with the table R55): a command that moves bytes faults with ADDR_RANGE and does
nothing else exactly when not all of them exist; a transfer of none never faults and touches no memory; addresses do not
wrap. -/
def Obligations.RangeFaultExactlyWhenOutOfRange : Prop :=
  ∀ (i : Instr) (s : State) (a n : Nat), moved s i = some (a, n) →
    ∃ t, exec i s = .next t ∧
      (Fits a n → t.status = s.status ∧ t.cmdcnt.toNat = (s.cmdcnt.toNat + 1) % 2 ^ 32 ∧ t.result.toNat = 0 ∧
        (n = 0 → MemKept s t)) ∧
      (¬ Fits a n → FaultEntered 2 (encode i) s t)

/-- A well-formed command that moves no bytes never faults (60_exceptions.md R187). -/
def Obligations.NoFaultWithoutATransfer : Prop :=
  ∀ (i : Instr) (s : State), i.wellFormed = true → moved s i = none →
    ∃ t, exec i s = .next t ∧ t.status = s.status ∧ t.fcause = s.fcause ∧ t.fcmd = s.fcmd

/-- Leaving a fault (60_exceptions.md R193, R194): while faulted a CMD write changes nothing, whatever its word, and any
step after which the unit is not faulted was a reset; every other step keeps STATUS, FCAUSE and FCMD. -/
def Obligations.OnlyResetLeavesAFault : Prop :=
  ∀ (s t : State) (a : HostAction) (q : List HostAction), s.faulted = true → s.host.pending = a :: q → step s = .next t →
    (∀ w, a = .writeCtrl 0x00 w → t = s.withPending q) ∧
    ((a = .resetInput ∨ ∃ w : Word, a = .writeCtrl 0x30 w ∧ w.getLsbD 0 = true) ∨
      (t.status = s.status ∧ t.fcause = s.fcause ∧ t.fcmd = s.fcmd))

/-- After a fault the rest of a program does nothing (70_reset_and_hazards.md R216). -/
def Obligations.CommandsAfterAFaultDoNothing : Prop :=
  ∀ (is : List Instr) (s : State), s.faulted = true → s.host.pending = issueAll is →
    Host.Core.run core is.length s = .next (s.withPending [])

/-- CMDCNT counts the commands that retire (10_state.md R23, 43_system.md R172): a program that ends well has advanced it
by its length, modulo 2^32. -/
def Obligations.CmdcntCountsRetiredCommands : Prop :=
  ∀ (is : List Instr) (s t : State), (∀ i ∈ is, i.wellFormed = true) → s.host.pending = issueAll is →
    s.faulted = false → Host.Core.run core is.length s = .next t → t.faulted = false →
    t.cmdcnt.toNat = (s.cmdcnt.toNat + is.length) % 2 ^ 32 ∧ t.host.pending = []

/-- Reset by the input and by CTRL.SRST (70_reset_and_hazards.md R210, 10_state.md R38): the same effect, every control
register and both sketch lengths 0, and the unit ready for its first command. -/
def Obligations.ResetClearsTheControlState : Prop :=
  ∀ (s : State) (q : List HostAction) (w : Word), w.getLsbD 0 = true →
    ∃ t, perform .resetInput (s.withPending q) = .next t ∧ perform (.writeCtrl 0x30 w) (s.withPending q) = .next t ∧
      t.status = 0 ∧ t.result = 0 ∧ t.esticky = 0 ∧ t.rval = 0 ∧ t.cmdcnt = 0 ∧ t.fcause = 0 ∧ t.fcmd = 0 ∧
      t.sk.alen = 0 ∧ t.sk.plen = 0 ∧ t.faulted = false ∧ t.host = (s.withPending q).host

/-- Every other write to the control space changes no state: read-only registers, CTRL with bit 0 clear, unassigned
offsets (10_state.md R27, R38, R39). -/
def Obligations.OtherControlWritesAreIgnored : Prop :=
  ∀ (s : State) (off : Nat) (w : Word) (q : List HostAction), s.host.pending = .writeCtrl off w :: q →
    off ≠ 0x00 → off ≠ 0x30 ∨ w.getLsbD 0 = false → step s = .next (s.withPending q)

/-- A host read of the control space returns the map's register, or 0 where none is assigned, and changes nothing but
what the host has read (10_state.md R27 to R39). -/
def Obligations.ControlReadsFollowTheMap : Prop :=
  ∀ (s : State) (off : Nat) (q : List HostAction), s.host.pending = .readCtrl off :: q →
    ∃ v : Word, step s = .next ((s.withPending q).reply (.ctrlWord off v)) ∧
      (off = 0x04 → v = s.status) ∧ (off = 0x08 → v = s.result) ∧ (off = 0x0C → v = s.esticky) ∧
      (off = 0x10 → v = s.rval) ∧ (off = 0x14 → v = s.cmdcnt) ∧ (off = 0x18 → v = s.fcause) ∧
      (off = 0x1C → v = s.fcmd) ∧ (off = 0x20 → v.toNat = s.sk.alen.toNat) ∧
      (off = 0x24 → v.toNat = s.sk.plen.toNat) ∧ (off = 0x28 → v.toNat = 256) ∧ (off = 0x2C → v.toNat = 3329) ∧
      (off = 0x34 → v.toNat = 1) ∧
      (off ∉ [0x04, 0x08, 0x0C, 0x10, 0x14, 0x18, 0x1C, 0x20, 0x24, 0x28, 0x2C, 0x34] → v = 0)

/-- The host's access to operand memory, faulted or not (20_memory.md R58, R57): a byte write changes that byte alone, a
byte read returns the byte and changes nothing but what the host has read. -/
def Obligations.HostReachesOperandMemory : Prop :=
  ∀ (s : State) (a : Addr) (v : Byte) (q : List HostAction),
    (s.host.pending = .writeMem a v :: q →
      ∃ t, step s = .next t ∧ t.readByte a.toNat = v ∧ (∀ p, p ≠ a.toNat → t.readByte p = s.readByte p) ∧
        { t with omem := s.omem } = s.withPending q) ∧
    (s.host.pending = .readMem a :: q →
      step s = .next ((s.withPending q).reply (.memByte a (s.readByte a.toNat))))

/-! ### The invariant -/

/-- The state after reset meets the invariant, with RESULT, CMDCNT and both lengths 0 (10_state.md R43, R44). -/
def Obligations.ResetMeetsTheInvariant : Prop :=
  State.Inv State.reset ∧ State.Good State.reset ∧ State.reset.result = 0 ∧ State.reset.cmdcnt = 0 ∧
    State.reset.sk.alen = 0 ∧ State.reset.sk.plen = 0

/-- Every step keeps the invariant: the control registers' reserved bits and codes, STATUS against FCAUSE, no error
swallowed, RVAL's range, the canonical form of memory (10_state.md R44). -/
def Obligations.StepKeepsTheInvariant : Prop :=
  ∀ s t : State, State.Inv s → step s = .next t → State.Inv t

/-- A sticky bit stays set until CLRERR or reset (10_state.md R31): a step that clears one took a reset, or a CMD write
of CLRERR. -/
def Obligations.StickyBitsStaySet : Prop :=
  ∀ (s t : State) (k : Nat), step s = .next t → s.esticky.getLsbD k = true → t.esticky.getLsbD k = false →
    ∃ a q, s.host.pending = a :: q ∧
      (a = .resetInput ∨ (∃ w : Word, a = .writeCtrl 0x30 w ∧ w.getLsbD 0 = true) ∨
        (∃ w : Word, a = .writeCtrl 0x00 w ∧ decode w = some .clrerr))

/-! ### Rules over all commands -/

/-- What each command may write (10_state.md R25): ring registers, seed registers, SK as a whole (its fields one by one are
in the sketch commands' own statements), operand memory and RVAL only where the command's row has a W; no sticky bit is
cleared but by CLRERR; the host's queue is untouched. -/
def Obligations.CommandsWriteOnlyTheirColumns : Prop :=
  ∀ (i : Instr) (s t : State), exec i s = .next t →
    RingsKept (ringDests i) s t ∧ SeedsKept (seedDests i) s t ∧
    (writesSketch i = false → t.sk = s.sk) ∧
    (writesRval i = false → t.rval = s.rval) ∧
    (isStore i = false → MemKept s t) ∧
    (∀ a n, isStore i = true → moved s i = some (a, n) → MemKeptOutside a n s t) ∧
    (i ≠ .clrerr → ∀ k, s.esticky.getLsbD k = true → t.esticky.getLsbD k = true) ∧
    t.host = s.host ∧ t.epoch = s.epoch

/-- Only DECOMPRESS retires with an error (60_exceptions.md R181, R183): any command that retires with a code other than
OK is DECOMPRESS, and the code is then InvalidInput or ChecksumMismatch. -/
def Obligations.OnlyDecompressReportsAnError : Prop :=
  ∀ (i : Instr) (s t : State), exec i s = .next t → t.cmdcnt ≠ s.cmdcnt → t.result.toNat ≠ 0 →
    (∃ a b, i = .decompress a b) ∧ (t.result.toNat = 1 ∨ t.result.toNat = 2)

/-- Purity (40_ring_arith.md R105, R111; 42_sketch_codec.md R141 corner case 1): two units that agree on the sources of a
ring command leave the same value in its destination, whatever else differs; and what COMPRESS leaves in the sketch's
sequences does not depend on the register named ra. -/
def Obligations.RingCommandsDependOnTheirSourcesOnly : Prop :=
  ∀ s s' : State,
    (∀ d x y e, s.ringReg x = s'.ringReg x → s.ringReg y = s'.ringReg y →
      ∃ t t' u u' v v', exec (.radd d x y) s = .next t ∧ exec (.radd e x y) s' = .next t' ∧
        t.ringReg d = t'.ringReg e ∧
        exec (.rsub d x y) s = .next u ∧ exec (.rsub e x y) s' = .next u' ∧ u.ringReg d = u'.ringReg e ∧
        exec (.rmul d x y) s = .next v ∧ exec (.rmul e x y) s' = .next v' ∧ v.ringReg d = v'.ringReg e) ∧
    (∀ x y, s.ringReg x = s'.ringReg x → s.ringReg y = s'.ringReg y →
      ∃ t t' u u', exec (.rred x) s = .next t ∧ exec (.rred x) s' = .next t' ∧ t.ringReg x = t'.ringReg x ∧
        exec (.req x y) s = .next u ∧ exec (.req x y) s' = .next u' ∧ u.rval = u'.rval) ∧
    (∀ d e k m dom, s.seedReg k = s'.seedReg m →
      ∃ t t', exec (.rgen d k dom) s = .next t ∧ exec (.rgen e m dom) s' = .next t' ∧
        t.ringReg d = t'.ringReg e) ∧
    (∀ ra ra' rb ss, s.ringReg rb = s'.ringReg rb → s.seedReg ss = s'.seedReg ss →
      ∃ t t', exec (.compress ra rb ss) s = .next t ∧ exec (.compress ra' rb ss) s' = .next t' ∧
        t.sk.seed = t'.sk.seed ∧ t.sk.alen = t'.sk.alen ∧ t.sk.plen = t'.sk.plen ∧ t.sk.chk = t'.sk.chk ∧
        ∀ i < 128, t.sk.anchor.nth i = t'.sk.anchor.nth i ∧ t.sk.parity.nth i = t'.sk.parity.nth i)

/-- Idempotence (70_reset_and_hazards.md R218): a command issued twice leaves what it leaves when issued once, but for
CMDCNT. The premise on memory is part of the invariant. -/
def Obligations.RepeatedCommandLeavesTheSameState : Prop :=
  ∀ (i : Instr) (s t : State), repeatable i → s.omem.wf → s.faulted = false → exec i s = .next t →
    t.faulted = false →
    ∃ u, exec i t = .next u ∧ { u with cmdcnt := t.cmdcnt } = t ∧ u.cmdcnt.toNat = (t.cmdcnt.toNat + 1) % 2 ^ 32

/-! ### System commands -/

/-- NOP (43_system.md R170): retires with OK, and the sticky bits stay. -/
def Obligations.NopOnlyRetires : Prop :=
  ∀ s : State, (encode .nop).toNat = 0 ∧
    ∃ t, exec .nop s = .next t ∧ Retired 0 s t ∧ NothingWritten s t

/-- CLRERR (43_system.md R171): ESTICKY <- 0, RESULT <- OK; STATUS, FCAUSE and FCMD stay. -/
def Obligations.ClrerrClearsTheStickyBits : Prop :=
  ∀ s : State, (encode .clrerr).toNat = 0x01000000 ∧
    ∃ t, exec .clrerr s = .next t ∧ t.esticky = 0 ∧ t.result = 0 ∧
      t.cmdcnt.toNat = (s.cmdcnt.toNat + 1) % 2 ^ 32 ∧ t.status = s.status ∧ t.fcause = s.fcause ∧ t.fcmd = s.fcmd ∧
      t.host = s.host ∧ t.epoch = s.epoch ∧ NothingWritten s t

/-! ### Ring arithmetic -/

/-- RADD (40_ring_arith.md R100): for all 16-bit lanes, the exact sum modulo Q. -/
def Obligations.RaddAddsModuloQ : Prop :=
  ∀ (rd rs1 rs2 : RingReg) (s : State),
    (encode (.radd rd rs1 rs2)).toNat = 0x10000000 + rd * 2 ^ 20 + rs1 * 2 ^ 16 + rs2 * 2 ^ 12 ∧
    ∃ t, exec (.radd rd rs1 rs2) s = .next t ∧ Retired 0 s t ∧
      (∀ i < 256, lane t rd i = (lane s rs1 i + lane s rs2 i) % 3329) ∧ OnlyRing rd s t

/-- RSUB (40_ring_arith.md R101): for all 16-bit lanes, the Euclidean residue of the exact difference. -/
def Obligations.RsubSubtractsModuloQ : Prop :=
  ∀ (rd rs1 rs2 : RingReg) (s : State),
    (encode (.rsub rd rs1 rs2)).toNat = 0x11000000 + rd * 2 ^ 20 + rs1 * 2 ^ 16 + rs2 * 2 ^ 12 ∧
    ∃ t, exec (.rsub rd rs1 rs2) s = .next t ∧ Retired 0 s t ∧
      (∀ i < 256, (lane t rd i : Int) = ((lane s rs1 i : Int) - lane s rs2 i) % 3329) ∧ OnlyRing rd s t

/-- RMUL (40_ring_arith.md R102, 90_conflicts.md C1): lane i is `(conv[i] - conv[i+N]) mod Q`, where `conv[k]` sums
`x[j] * y[m]` over the pairs of indices with `j + m = k`. -/
def Obligations.RmulConvolvesModuloQ : Prop :=
  ∀ (rd rs1 rs2 : RingReg) (s : State),
    (encode (.rmul rd rs1 rs2)).toNat = 0x12000000 + rd * 2 ^ 20 + rs1 * 2 ^ 16 + rs2 * 2 ^ 12 ∧
    ∃ t, exec (.rmul rd rs1 rs2) s = .next t ∧ Retired 0 s t ∧
      (∀ i < 256, (lane t rd i : Int) =
        ((∑ j ∈ Finset.range 256, ∑ m ∈ Finset.range 256,
            if j + m = i then (lane s rs1 j : Int) * lane s rs2 m else 0) -
          (∑ j ∈ Finset.range 256, ∑ m ∈ Finset.range 256,
            if j + m = i + 256 then (lane s rs1 j : Int) * lane s rs2 m else 0)) % 3329) ∧ OnlyRing rd s t

/-- RRED (40_ring_arith.md R103): every lane modulo Q; a normalised register is unchanged. -/
def Obligations.RredReducesModuloQ : Prop :=
  ∀ (rd : RingReg) (s : State), (encode (.rred rd)).toNat = 0x13000000 + rd * 2 ^ 20 ∧
    ∃ t, exec (.rred rd) s = .next t ∧ Retired 0 s t ∧ (∀ i < 256, lane t rd i = lane s rd i % 3329) ∧
      (Normalised (s.ringReg rd) → t.ringReg rd = s.ringReg rd) ∧ OnlyRing rd s t

/-- REQ (40_ring_arith.md R104): RVAL is 1 if all stored lanes are equal and 0 if one differs. -/
def Obligations.ReqComparesStoredLanes : Prop :=
  ∀ (rs1 rs2 : RingReg) (s : State), (encode (.req rs1 rs2)).toNat = 0x14000000 + rs1 * 2 ^ 20 + rs2 * 2 ^ 16 ∧
    ∃ t, exec (.req rs1 rs2) s = .next t ∧ Retired 0 s t ∧
      ((∀ i < 256, lane s rs1 i = lane s rs2 i) → t.rval.toNat = 1) ∧
      ((∃ i < 256, lane s rs1 i ≠ lane s rs2 i) → t.rval.toNat = 0) ∧ OnlyRval s t

/-- RGEN (40_ring_arith.md R105, 00_scope.md R17): lane i is the i-th wide value modulo Q, whatever GenWide is. -/
def Obligations.RgenReducesWideValues : Prop :=
  ∀ (rd : RingReg) (ss : SeedReg) (domain : Byte) (s : State),
    (encode (.rgen rd ss domain)).toNat = 0x15000000 + rd * 2 ^ 20 + ss * 2 ^ 16 + domain.toNat ∧
    ∃ t, exec (.rgen rd ss domain) s = .next t ∧ Retired 0 s t ∧
      (∀ i < 256, lane t rd i = Config.GenWide (s.seedReg ss) domain i % 3329) ∧ OnlyRing rd s t

/-- Closure (40_ring_arith.md R107): the five computing commands write a normalised register for all inputs. -/
def Obligations.ComputedRegistersAreNormalised : Prop :=
  ∀ (rd rs1 rs2 : RingReg) (ss : SeedReg) (domain : Byte) (s : State) (i : Instr),
    i ∈ [Instr.radd rd rs1 rs2, .rsub rd rs1 rs2, .rmul rd rs1 rs2, .rred rd, .rgen rd ss domain] →
    ∃ t, exec i s = .next t ∧ Normalised (t.ringReg rd)

/-- Inverse (40_ring_arith.md R108): RADD rt, ra, rb then RSUB ru, rt, rb leaves R[ra]'s old lanes reduced, so R[ra] itself
when it was normalised, for rt other than rb. R108 names no exception; that rt = rb is one, where the sum has replaced the
operand and the difference is 0, is derived from 30_encoding.md R74 and 40_ring_arith.md R100 and R101. -/
def Obligations.SubtractionUndoesAddition : Prop :=
  ∀ (rt ru ra rb : RingReg) (s : State),
    ∃ t u, exec (.radd rt ra rb) s = .next t ∧ exec (.rsub ru rt rb) t = .next u ∧
      (rt ≠ rb → ∀ i < 256, lane u ru i = lane s ra i % 3329) ∧
      (rt ≠ rb → Normalised (s.ringReg ra) → u.ringReg ru = s.ringReg ra) ∧
      (rt = rb → ∀ i < 256, lane u ru i = 0)

/-- Identity and commutativity (40_ring_arith.md R109). -/
def Obligations.ProductHasIdentityAndCommutes : Prop :=
  ∀ (rt ra rb : RingReg) (s : State),
    (∃ t u, exec (.rmul rt ra rb) s = .next t ∧ exec (.rmul rt rb ra) s = .next u ∧ t = u) ∧
    (∀ re, (∀ i < 256, lane s re i = if i = 0 then 1 else 0) → Normalised (s.ringReg ra) →
      ∃ t, exec (.rmul rt ra re) s = .next t ∧ t.ringReg rt = s.ringReg ra)

/-- RADD, RSUB and RMUL realise the operations of the quotient ring Z_Q[X]/(X^N + 1) exactly (00_scope.md R3;
40_ring_arith.md R102): the polynomials' sum and difference, and their product up to a multiple of X^N + 1. -/
def Obligations.RingCommandsRealiseTheQuotientRing : Prop :=
  ∀ (rd rs1 rs2 : RingReg) (s : State),
    (∃ t, exec (.radd rd rs1 rs2) s = .next t ∧
      poly (t.ringReg rd) = poly (s.ringReg rs1) + poly (s.ringReg rs2)) ∧
    (∃ t, exec (.rsub rd rs1 rs2) s = .next t ∧
      poly (t.ringReg rd) = poly (s.ringReg rs1) - poly (s.ringReg rs2)) ∧
    (∃ t, exec (.rmul rd rs1 rs2) s = .next t ∧
      (Polynomial.X ^ 256 + 1) ∣ poly (s.ringReg rs1) * poly (s.ringReg rs2) - poly (t.ringReg rd))

/-! ### Data movement -/

/-- LDR (41_data_movement.md R121): lane i from bytes addr+2i and addr+2i+1, little-endian, not reduced; or the fault. -/
def Obligations.LdrLoadsLittleEndianLanes : Prop :=
  ∀ (rd : RingReg) (addr : Addr) (s : State),
    (encode (.ldr rd addr)).toNat = 0x20000000 + rd * 2 ^ 20 + addr.toNat ∧
    (addr.toNat ≤ 0xFE00 → ∃ t, exec (.ldr rd addr) s = .next t ∧ Retired 0 s t ∧
      (∀ i < 256, lane t rd i = byteAt s (addr.toNat + 2 * i) + 256 * byteAt s (addr.toNat + 2 * i + 1)) ∧
      OnlyRing rd s t) ∧
    (0xFE00 < addr.toNat → ∃ t, exec (.ldr rd addr) s = .next t ∧ FaultEntered 2 (encode (.ldr rd addr)) s t)

/-- STR (41_data_movement.md R122): byte addr+2i is lane i mod 256, byte addr+2i+1 is lane i div 256; or the fault. -/
def Obligations.StrStoresLittleEndianLanes : Prop :=
  ∀ (rs : RingReg) (addr : Addr) (s : State),
    (encode (.str rs addr)).toNat = 0x21000000 + rs * 2 ^ 20 + addr.toNat ∧
    (addr.toNat ≤ 0xFE00 → ∃ t, exec (.str rs addr) s = .next t ∧ Retired 0 s t ∧
      (∀ i < 256, byteAt t (addr.toNat + 2 * i) = lane s rs i % 256 ∧
        byteAt t (addr.toNat + 2 * i + 1) = lane s rs i / 256) ∧
      OnlyBytes addr.toNat 512 s t) ∧
    (0xFE00 < addr.toNat → ∃ t, exec (.str rs addr) s = .next t ∧ FaultEntered 2 (encode (.str rs addr)) s t)

/-- LDS (41_data_movement.md R123): byte j of the seed register is the byte at addr + j; or the fault. -/
def Obligations.LdsLoadsASeed : Prop :=
  ∀ (sd : SeedReg) (addr : Addr) (s : State),
    (encode (.lds sd addr)).toNat = 0x22000000 + sd * 2 ^ 20 + addr.toNat ∧
    (addr.toNat ≤ 0xFFE0 → ∃ t, exec (.lds sd addr) s = .next t ∧ Retired 0 s t ∧
      (∀ j < 32, (t.seedReg sd).nth j = s.readByte (addr.toNat + j)) ∧
      RingsKept [] s t ∧ SeedsKept [sd] s t ∧ t.sk = s.sk ∧ t.rval = s.rval ∧ MemKept s t) ∧
    (0xFFE0 < addr.toNat → ∃ t, exec (.lds sd addr) s = .next t ∧ FaultEntered 2 (encode (.lds sd addr)) s t)

/-- STS (41_data_movement.md R124): the byte at addr + j is byte j of the seed register; or the fault. -/
def Obligations.StsStoresASeed : Prop :=
  ∀ (ss : SeedReg) (addr : Addr) (s : State),
    (encode (.sts ss addr)).toNat = 0x23000000 + ss * 2 ^ 20 + addr.toNat ∧
    (addr.toNat ≤ 0xFFE0 → ∃ t, exec (.sts ss addr) s = .next t ∧ Retired 0 s t ∧
      (∀ j < 32, t.readByte (addr.toNat + j) = (s.seedReg ss).nth j) ∧ OnlyBytes addr.toNat 32 s t) ∧
    (0xFFE0 < addr.toNat → ∃ t, exec (.sts ss addr) s = .next t ∧ FaultEntered 2 (encode (.sts ss addr)) s t)

/-- RZERO (41_data_movement.md R125): every lane 0. -/
def Obligations.RzeroClearsEveryLane : Prop :=
  ∀ (rd : RingReg) (s : State), (encode (.rzero rd)).toNat = 0x24000000 + rd * 2 ^ 20 ∧
    ∃ t, exec (.rzero rd) s = .next t ∧ Retired 0 s t ∧ (∀ i < 256, lane t rd i = 0) ∧ OnlyRing rd s t

/-- RSETL (41_data_movement.md R126): one lane is the zero-extended immediate, not reduced; the others keep their
values. -/
def Obligations.RsetlWritesOneLane : Prop :=
  ∀ (rd : RingReg) (idx : Fin 256) (imm : BitVec 12) (s : State),
    (encode (.rsetl rd idx imm)).toNat = 0x25000000 + rd * 2 ^ 20 + idx * 2 ^ 12 + imm.toNat ∧
    ∃ t, exec (.rsetl rd idx imm) s = .next t ∧ Retired 0 s t ∧ lane t rd idx = imm.toNat ∧
      (∀ i < 256, i ≠ idx.val → lane t rd i = lane s rd i) ∧ OnlyRing rd s t

/-- RGETL (41_data_movement.md R127): RVAL is the stored lane, zero-extended. -/
def Obligations.RgetlReadsOneLane : Prop :=
  ∀ (rs : RingReg) (idx : Fin 256) (s : State),
    (encode (.rgetl rs idx)).toNat = 0x26000000 + rs * 2 ^ 20 + idx * 2 ^ 12 ∧
    ∃ t, exec (.rgetl rs idx) s = .next t ∧ Retired 0 s t ∧ t.rval.toNat = lane s rs idx ∧ OnlyRval s t

/-- A store then a load of the same range (41_data_movement.md R122, R124; 20_memory.md R54, R57), at any address in
range, odd or even: a register is copied. -/
def Obligations.StoreThenLoadReturnsWhatWasStored : Prop :=
  ∀ (r d : RingReg) (k e : SeedReg) (addr : Addr) (s : State),
    (addr.toNat ≤ 0xFE00 → ∃ t u, exec (.str r addr) s = .next t ∧ exec (.ldr d addr) t = .next u ∧
      u.ringReg d = s.ringReg r) ∧
    (addr.toNat ≤ 0xFFE0 → ∃ t u, exec (.sts k addr) s = .next t ∧ exec (.lds e addr) t = .next u ∧
      u.seedReg e = s.seedReg k)

/-- The pseudo-instruction RONE (30_encoding.md R86): its two commands leave the ring identity and CMDCNT two higher. -/
def Obligations.RoneBuildsTheIdentity : Prop :=
  ∀ (rd : RingReg) (s : State) (q : List HostAction), s.faulted = false →
    s.host.pending = issueAll (Instr.rone rd) ++ q →
    ∃ t, Host.Core.run core 2 s = .next t ∧ (∀ i < 256, lane t rd i = if i = 0 then 1 else 0) ∧
      t.cmdcnt.toNat = (s.cmdcnt.toNat + 2) % 2 ^ 32 ∧ t.host.pending = q ∧ OnlyRing rd s t

/-! ### Sketch codec -/

/-- COMPRESS (42_sketch_codec.md R141): for every R[rb], reduced or not, all four fields and both lengths of SK; entries
128 to 255 of the buffers keep their values; R[ra] is not read. -/
def Obligations.CompressMakesTheSketch : Prop :=
  ∀ (ra rb : RingReg) (ss : SeedReg) (s : State) (y : Vec Byte 512), IsSer y (s.ringReg rb) →
    (encode (.compress ra rb ss)).toNat = 0x30000000 + ra * 2 ^ 20 + rb * 2 ^ 16 + ss * 2 ^ 12 ∧
    ∃ t, exec (.compress ra rb ss) s = .next t ∧ Retired 0 s t ∧
      t.sk.alen.toNat = 128 ∧ t.sk.plen.toNat = 128 ∧ t.sk.seed = s.seedReg ss ∧
      (∀ j < 8, t.sk.chk.nth j = Config.checksumByte y j) ∧
      (∀ i < 128, (t.sk.anchor.nth i).toNat = lane s rb (2 * i) ∧
        (t.sk.parity.nth i).toNat = (lane s rb (2 * i) + lane s rb (2 * i + 1)) % 3329) ∧
      (∀ i < 256, 128 ≤ i → t.sk.anchor.nth i = s.sk.anchor.nth i ∧ t.sk.parity.nth i = s.sk.parity.nth i) ∧
      OnlySketch s t

/-- DECOMPRESS (42_sketch_codec.md R142): InvalidInput for a wrong length, before the checksum; ChecksumMismatch when a
byte differs; else the two registers. On an error no register is written; SK never is. The clause rda = rdb is no rule of
the spec, which makes a word of that shape illegal at decode (R142, 30_encoding.md R72): what executing such a command does,
which no word encodes, is the model's choice (assumption log 6). -/
def Obligations.DecompressChecksThenWritesBoth : Prop :=
  ∀ (rda rdb : RingReg) (s : State) (b : RingElem) (y : Vec Byte 512),
    IsReconstructed s.sk b → IsSer y b →
    (encode (.decompress rda rdb)).toNat = 0x31000000 + rda * 2 ^ 20 + rdb * 2 ^ 16 ∧
    (rda = rdb → ∃ t, exec (.decompress rda rdb) s = .next t ∧ FaultEntered 1 (encode (.decompress rda rdb)) s t) ∧
    (rda ≠ rdb → (s.sk.alen.toNat ≠ 128 ∨ s.sk.plen.toNat ≠ 128) →
      ∃ t, exec (.decompress rda rdb) s = .next t ∧ Retired 1 s t ∧ NothingWritten s t) ∧
    (rda ≠ rdb → s.sk.alen.toNat = 128 → s.sk.plen.toNat = 128 → (∃ j < 8, s.sk.chk.nth j ≠ Config.checksumByte y j) →
      ∃ t, exec (.decompress rda rdb) s = .next t ∧ Retired 2 s t ∧ NothingWritten s t) ∧
    (rda ≠ rdb → s.sk.alen.toNat = 128 → s.sk.plen.toNat = 128 → (∀ j < 8, s.sk.chk.nth j = Config.checksumByte y j) →
      ∃ t, exec (.decompress rda rdb) s = .next t ∧ Retired 0 s t ∧
        (∀ i < 256, lane t rda i = Config.GenWide s.sk.seed 0 i % 3329) ∧ t.ringReg rdb = b ∧
        RingsKept [rda, rdb] s t ∧ SeedsKept [] s t ∧ t.sk = s.sk ∧ t.rval = s.rval ∧ MemKept s t)

/-- KSIZE and SKSIZE (42_sketch_codec.md R143, R144): 1024, and 32 + 2 ALEN + 8 + 2 PLEN, which is 552 for a valid
sketch. -/
def Obligations.SizeCommandsReportByteCounts : Prop :=
  ∀ s : State, (encode .ksize).toNat = 0x32000000 ∧ (encode .sksize).toNat = 0x33000000 ∧
    (∃ t, exec .ksize s = .next t ∧ Retired 0 s t ∧ t.rval.toNat = 1024 ∧ OnlyRval s t) ∧
    (∃ t, exec .sksize s = .next t ∧ Retired 0 s t ∧
      t.rval.toNat = 32 + 2 * s.sk.alen.toNat + 8 + 2 * s.sk.plen.toNat ∧
      (s.sk.alen.toNat = 128 → s.sk.plen.toNat = 128 → t.rval.toNat = 552) ∧ OnlyRval s t)

/-- Round trip (42_sketch_codec.md R145): after COMPRESS, DECOMPRESS in any state that holds that sketch. If the odd lanes
of the element are below Q it retires with OK, gives the element back in all 256 lanes, and regenerates `a` from the
seed. Whatever the element is, what is reconstructed has its even lanes and its odd lanes reduced, and DECOMPRESS reports
ChecksumMismatch exactly when the checksum tells the two apart. -/
def Obligations.DecompressUndoesCompress : Prop :=
  ∀ (ra rb rx ry : RingReg) (ss : SeedReg) (s : State), rx ≠ ry →
    ∃ t, exec (.compress ra rb ss) s = .next t ∧
      ∀ u : State, u.sk = t.sk →
        ((∀ i < 128, lane s rb (2 * i + 1) < 3329) →
          ∃ v, exec (.decompress rx ry) u = .next v ∧ Retired 0 u v ∧ v.ringReg ry = s.ringReg rb ∧
            (∀ i < 256, lane v rx i = Config.GenWide (s.seedReg ss) 0 i % 3329) ∧ v.sk = t.sk) ∧
        (∀ b, IsReconstructed t.sk b →
          (∀ i < 128, (b.nth (2 * i)).toNat = lane s rb (2 * i) ∧
            (b.nth (2 * i + 1)).toNat = lane s rb (2 * i + 1) % 3329) ∧
          ∃ v, exec (.decompress rx ry) u = .next v ∧
            (v.result.toNat = 2 ↔ ¬ SameChecksum b (s.ringReg rb)) ∧
            (v.result.toNat = 0 ↔ SameChecksum b (s.ringReg rb)))

/-- Tamper detection and its limit (42_sketch_codec.md R146, 90_conflicts.md C4). In the sketch COMPRESS made of a
normalised element one entry is changed, the checksum kept. A parity entry changed by a multiple of Q is not seen: the
element comes back. Any other change reconstructs another element `b`, and DECOMPRESS reports ChecksumMismatch exactly
when the checksum tells `b` from the original (93_implementation_defined.md U4: nothing is assumed of the checksum). -/
def Obligations.TamperingIsSeenThroughTheChecksum : Prop :=
  ∀ (ra rb rx ry : RingReg) (ss : SeedReg) (s : State) (k : Fin 256) (p : Lane), rx ≠ ry → k.val < 128 →
    Normalised (s.ringReg rb) →
    ∃ t, exec (.compress ra rb ss) s = .next t ∧
      (p.toNat % 3329 = (t.sk.parity.nth k).toNat % 3329 →
        ∃ v, exec (.decompress rx ry) (t.setSketch { t.sk with parity := t.sk.parity.set k p }) = .next v ∧
          v.result.toNat = 0 ∧ v.ringReg ry = s.ringReg rb) ∧
      (p.toNat % 3329 ≠ (t.sk.parity.nth k).toNat % 3329 → ∀ b,
        IsReconstructed { t.sk with parity := t.sk.parity.set k p } b →
          b ≠ s.ringReg rb ∧
          ∃ v, exec (.decompress rx ry) (t.setSketch { t.sk with parity := t.sk.parity.set k p }) = .next v ∧
            (v.result.toNat = 2 ↔ ¬ SameChecksum b (s.ringReg rb)) ∧
            (v.result.toNat = 0 ↔ SameChecksum b (s.ringReg rb))) ∧
      (p ≠ t.sk.anchor.nth k → ∀ b,
        IsReconstructed { t.sk with anchor := t.sk.anchor.set k p } b →
          b ≠ s.ringReg rb ∧
          ∃ v, exec (.decompress rx ry) (t.setSketch { t.sk with anchor := t.sk.anchor.set k p }) = .next v ∧
            (v.result.toNat = 2 ↔ ¬ SameChecksum b (s.ringReg rb)) ∧
            (v.result.toNat = 0 ↔ SameChecksum b (s.ringReg rb)))

/-- What the checksum does not cover (42_sketch_codec.md R149, 90_conflicts.md C5): with another seed in the sketch
DECOMPRESS still retires with OK, and `a` is generated from that seed. -/
def Obligations.ChecksumDoesNotCoverTheSeed : Prop :=
  ∀ (ra rb rx ry : RingReg) (ss : SeedReg) (s : State) (σ : Seed), rx ≠ ry → Normalised (s.ringReg rb) →
    ∃ t v, exec (.compress ra rb ss) s = .next t ∧
      exec (.decompress rx ry) (t.setSketch { t.sk with seed := σ }) = .next v ∧ v.result.toNat = 0 ∧
      v.ringReg ry = s.ringReg rb ∧ ∀ i < 256, lane v rx i = Config.GenWide σ 0 i % 3329

/-! ### Sketch field transfers -/

/-- SKLDS and SKLDC (42_sketch_codec.md R150, R154): a byte string is loaded and no other field changes; or the fault. -/
def Obligations.SketchStringLoads : Prop :=
  ∀ (addr : Addr) (s : State),
    (encode (.sklds addr)).toNat = 0x38000000 + addr.toNat ∧ (encode (.skldc addr)).toNat = 0x3C000000 + addr.toNat ∧
    (addr.toNat ≤ 0xFFE0 → ∃ t, exec (.sklds addr) s = .next t ∧ Retired 0 s t ∧
      (∀ j < 32, t.sk.seed.nth j = s.readByte (addr.toNat + j)) ∧ { t.sk with seed := s.sk.seed } = s.sk ∧
      OnlySketch s t) ∧
    (0xFFE0 < addr.toNat → ∃ t, exec (.sklds addr) s = .next t ∧ FaultEntered 2 (encode (.sklds addr)) s t) ∧
    (addr.toNat ≤ 0xFFF8 → ∃ t, exec (.skldc addr) s = .next t ∧ Retired 0 s t ∧
      (∀ j < 8, t.sk.chk.nth j = s.readByte (addr.toNat + j)) ∧ { t.sk with chk := s.sk.chk } = s.sk ∧
      OnlySketch s t) ∧
    (0xFFF8 < addr.toNat → ∃ t, exec (.skldc addr) s = .next t ∧ FaultEntered 2 (encode (.skldc addr)) s t)

/-- SKLDA and SKLDP (42_sketch_codec.md R152, R156): the first `len` entries, little-endian, and the length; entries at
and above `len` keep their values; a length of 0 never faults. -/
def Obligations.SketchSequenceLoads : Prop :=
  ∀ (addr : Addr) (len : BitVec 8) (s : State),
    (encode (.sklda addr len)).toNat = 0x3A000000 + len.toNat * 2 ^ 16 + addr.toNat ∧
    (encode (.skldp addr len)).toNat = 0x3E000000 + len.toNat * 2 ^ 16 + addr.toNat ∧
    (Fits addr.toNat (2 * len.toNat) →
      (∃ t, exec (.sklda addr len) s = .next t ∧ Retired 0 s t ∧ t.sk.alen = len ∧
        (∀ j < len.toNat, (t.sk.anchor.nth j).toNat =
          byteAt s (addr.toNat + 2 * j) + 256 * byteAt s (addr.toNat + 2 * j + 1)) ∧
        (∀ j < 256, len.toNat ≤ j → t.sk.anchor.nth j = s.sk.anchor.nth j) ∧
        { t.sk with anchor := s.sk.anchor, alen := s.sk.alen } = s.sk ∧ OnlySketch s t) ∧
      (∃ t, exec (.skldp addr len) s = .next t ∧ Retired 0 s t ∧ t.sk.plen = len ∧
        (∀ j < len.toNat, (t.sk.parity.nth j).toNat =
          byteAt s (addr.toNat + 2 * j) + 256 * byteAt s (addr.toNat + 2 * j + 1)) ∧
        (∀ j < 256, len.toNat ≤ j → t.sk.parity.nth j = s.sk.parity.nth j) ∧
        { t.sk with parity := s.sk.parity, plen := s.sk.plen } = s.sk ∧ OnlySketch s t)) ∧
    (¬ Fits addr.toNat (2 * len.toNat) →
      (∃ t, exec (.sklda addr len) s = .next t ∧ FaultEntered 2 (encode (.sklda addr len)) s t) ∧
      (∃ t, exec (.skldp addr len) s = .next t ∧ FaultEntered 2 (encode (.skldp addr len)) s t))

/-- SKSTS and SKSTC (42_sketch_codec.md R151, R155): a byte string is stored; or the fault. -/
def Obligations.SketchStringStores : Prop :=
  ∀ (addr : Addr) (s : State),
    (encode (.sksts addr)).toNat = 0x39000000 + addr.toNat ∧ (encode (.skstc addr)).toNat = 0x3D000000 + addr.toNat ∧
    (addr.toNat ≤ 0xFFE0 → ∃ t, exec (.sksts addr) s = .next t ∧ Retired 0 s t ∧
      (∀ j < 32, t.readByte (addr.toNat + j) = s.sk.seed.nth j) ∧ OnlyBytes addr.toNat 32 s t) ∧
    (0xFFE0 < addr.toNat → ∃ t, exec (.sksts addr) s = .next t ∧ FaultEntered 2 (encode (.sksts addr)) s t) ∧
    (addr.toNat ≤ 0xFFF8 → ∃ t, exec (.skstc addr) s = .next t ∧ Retired 0 s t ∧
      (∀ j < 8, t.readByte (addr.toNat + j) = s.sk.chk.nth j) ∧ OnlyBytes addr.toNat 8 s t) ∧
    (0xFFF8 < addr.toNat → ∃ t, exec (.skstc addr) s = .next t ∧ FaultEntered 2 (encode (.skstc addr)) s t)

/-- SKSTA and SKSTP (42_sketch_codec.md R153, R157): exactly the entries below the length, little-endian; none when the
length is 0, at any address; or the fault. -/
def Obligations.SketchSequenceStores : Prop :=
  ∀ (addr : Addr) (s : State),
    (encode (.sksta addr)).toNat = 0x3B000000 + addr.toNat ∧ (encode (.skstp addr)).toNat = 0x3F000000 + addr.toNat ∧
    (Fits addr.toNat (2 * s.sk.alen.toNat) → ∃ t, exec (.sksta addr) s = .next t ∧ Retired 0 s t ∧
      (∀ j < s.sk.alen.toNat, byteAt t (addr.toNat + 2 * j) = (s.sk.anchor.nth j).toNat % 256 ∧
        byteAt t (addr.toNat + 2 * j + 1) = (s.sk.anchor.nth j).toNat / 256) ∧
      OnlyBytes addr.toNat (2 * s.sk.alen.toNat) s t) ∧
    (¬ Fits addr.toNat (2 * s.sk.alen.toNat) →
      ∃ t, exec (.sksta addr) s = .next t ∧ FaultEntered 2 (encode (.sksta addr)) s t) ∧
    (Fits addr.toNat (2 * s.sk.plen.toNat) → ∃ t, exec (.skstp addr) s = .next t ∧ Retired 0 s t ∧
      (∀ j < s.sk.plen.toNat, byteAt t (addr.toNat + 2 * j) = (s.sk.parity.nth j).toNat % 256 ∧
        byteAt t (addr.toNat + 2 * j + 1) = (s.sk.parity.nth j).toNat / 256) ∧
      OnlyBytes addr.toNat (2 * s.sk.plen.toNat) s t) ∧
    (¬ Fits addr.toNat (2 * s.sk.plen.toNat) →
      ∃ t, exec (.skstp addr) s = .next t ∧ FaultEntered 2 (encode (.skstp addr)) s t)

/-- Round trip through memory (42_sketch_codec.md R159): the four fields stored on ranges that do not overlap, then, in any
later state that still holds those bytes, loaded with the lengths they had: the fields and lengths are restored. -/
def Obligations.SketchSurvivesATripThroughMemory : Prop :=
  ∀ (p q r u : Addr) (s t1 t2 t3 t4 v v1 v2 v3 v4 : State),
    let n := s.sk.alen.toNat
    let m := s.sk.plen.toNat
    Fits p.toNat 32 → Fits q.toNat (2 * n) → Fits r.toNat 8 → Fits u.toNat (2 * m) →
    List.Pairwise (fun x y : Nat × Nat => x.2 = 0 ∨ y.2 = 0 ∨ x.1 + x.2 ≤ y.1 ∨ y.1 + y.2 ≤ x.1)
      [(p.toNat, 32), (q.toNat, 2 * n), (r.toNat, 8), (u.toNat, 2 * m)] →
    exec (.sksts p) s = .next t1 → exec (.sksta q) t1 = .next t2 → exec (.skstc r) t2 = .next t3 →
    exec (.skstp u) t3 = .next t4 →
    (∀ x ∈ [(p.toNat, 32), (q.toNat, 2 * n), (r.toNat, 8), (u.toNat, 2 * m)], ∀ j < x.2,
      v.readByte (x.1 + j) = t4.readByte (x.1 + j)) →
    exec (.sklds p) v = .next v1 → exec (.sklda q s.sk.alen) v1 = .next v2 → exec (.skldc r) v2 = .next v3 →
    exec (.skldp u s.sk.plen) v3 = .next v4 →
    v4.sk.seed = s.sk.seed ∧ v4.sk.chk = s.sk.chk ∧ v4.sk.alen = s.sk.alen ∧ v4.sk.plen = s.sk.plen ∧
      (∀ j < n, v4.sk.anchor.nth j = s.sk.anchor.nth j) ∧ (∀ j < m, v4.sk.parity.nth j = s.sk.parity.nth j)

/-! ### The assembler -/

/-- The assembler (30_encoding.md R81) gives only commands that some word encodes: it refuses DECOMPRESS with two equal
registers, and every other refusal is in its operands' types. -/
def Obligations.AssembledCommandsAreWellFormed : Prop :=
  ∀ (line : List Char) (is : List Instr), assembleLine line = some is → ∀ i ∈ is, i.wellFormed = true
end

