-- ==== Sys2Proof/Laws/Decode.lean ====
section
/-! SUPPORT. What each field of a packed word is: one lemma per field per format; the inversion of a format check; a word
rebuilt from its fields; and one decoding equation per opcode. -/

namespace Sys2Proof

/-! ### Formats Z, R3, R2, R1, G -/

variable {op : Nat} (a b c : Fin 16)

theorem opField_packRegs {low : Nat} (hl : low < 4096) (h : op < 256) : opField (packRegs op a b c low) = op := by
  have := a.isLt; have := b.isLt; have := c.isLt
  simp only [opField, packRegs, bits, BitVec.toNat_ofNat]
  omega

theorem aField_packRegs {low : Nat} (hl : low < 4096) : aField (packRegs op a b c low) = a := by
  have := a.isLt; have := b.isLt; have := c.isLt
  apply Fin.ext
  simp only [aField, packRegs, bits, BitVec.toNat_ofNat, Fin.val_ofNat]
  omega

theorem bField_packRegs {low : Nat} (hl : low < 4096) : bField (packRegs op a b c low) = b := by
  have := a.isLt; have := b.isLt; have := c.isLt
  apply Fin.ext
  simp only [bField, packRegs, bits, BitVec.toNat_ofNat, Fin.val_ofNat]
  omega

theorem cField_packRegs {low : Nat} (hl : low < 4096) : cField (packRegs op a b c low) = c := by
  have := a.isLt; have := b.isLt; have := c.isLt
  apply Fin.ext
  simp only [cField, packRegs, bits, BitVec.toNat_ofNat, Fin.val_ofNat]
  omega

theorem domField_packRegs (d : Byte) : domField (packRegs op a b c d.toNat) = d := by
  have := a.isLt; have := b.isLt; have := c.isLt; have := d.isLt
  apply BitVec.eq_of_toNat_eq
  simp only [domField, packRegs, bits, BitVec.toNat_ofNat]
  omega

theorem bits_packRegs_r3  : bits (packRegs op a b c 0) 11 0 = 0 := by
  have := a.isLt; have := b.isLt; have := c.isLt
  simp only [packRegs, bits, BitVec.toNat_ofNat]
  omega

theorem bits_packRegs_g (d : Byte) : bits (packRegs op a b 0 d.toNat) 15 8 = 0 := by
  have := a.isLt; have := b.isLt; have := d.isLt
  simp only [packRegs, bits, BitVec.toNat_ofNat, Fin.val_zero]
  omega

theorem bits_packRegs_r2  : bits (packRegs op a b 0 0) 15 0 = 0 := by
  have := a.isLt; have := b.isLt
  simp only [packRegs, bits, BitVec.toNat_ofNat, Fin.val_zero]
  omega

theorem bits_packRegs_r1  : bits (packRegs op a 0 0 0) 19 0 = 0 := by
  have := a.isLt
  simp only [packRegs, bits, BitVec.toNat_ofNat, Fin.val_zero]
  omega

theorem bits_packRegs_z : bits (packRegs op 0 0 0 0) 23 0 = 0 := by
  simp only [packRegs, bits, BitVec.toNat_ofNat, Fin.val_zero]
  omega

/-! ### Formats M and A -/

variable (addr : Addr)

theorem opField_packAddr (h : op < 256) : opField (packAddr op a addr) = op := by
  have := a.isLt; have := addr.isLt
  simp only [opField, packAddr, bits, BitVec.toNat_ofNat]
  omega

theorem aField_packAddr  : aField (packAddr op a addr) = a := by
  have := a.isLt; have := addr.isLt
  apply Fin.ext
  simp only [aField, packAddr, bits, BitVec.toNat_ofNat, Fin.val_ofNat]
  omega

theorem addrField_packAddr  : addrField (packAddr op a addr) = addr := by
  have := a.isLt; have := addr.isLt
  apply BitVec.eq_of_toNat_eq
  simp only [addrField, packAddr, bits, BitVec.toNat_ofNat]
  omega

theorem bits_packAddr_m  : bits (packAddr op a addr) 19 16 = 0 := by
  have := a.isLt; have := addr.isLt
  simp only [packAddr, bits, BitVec.toNat_ofNat]
  omega

theorem bits_packAddr_a  : bits (packAddr op 0 addr) 23 16 = 0 := by
  have := addr.isLt
  simp only [packAddr, bits, BitVec.toNat_ofNat, Fin.val_zero]
  omega

/-! ### Format L -/

variable (len : BitVec 8)

theorem opField_packLen (h : op < 256) : opField (packLen op len addr) = op := by
  have := len.isLt; have := addr.isLt
  simp only [opField, packLen, bits, BitVec.toNat_ofNat]
  omega

theorem lenField_packLen  : lenField (packLen op len addr) = len := by
  have := len.isLt; have := addr.isLt
  apply BitVec.eq_of_toNat_eq
  simp only [lenField, packLen, bits, BitVec.toNat_ofNat]
  omega

theorem addrField_packLen  : addrField (packLen op len addr) = addr := by
  have := len.isLt; have := addr.isLt
  apply BitVec.eq_of_toNat_eq
  simp only [addrField, packLen, bits, BitVec.toNat_ofNat]
  omega

/-! ### Formats I and X -/

variable (idx : Fin 256) (imm : BitVec 12)

theorem opField_packIdx (h : op < 256) : opField (packIdx op a idx imm) = op := by
  have := a.isLt; have := idx.isLt; have := imm.isLt
  simp only [opField, packIdx, bits, BitVec.toNat_ofNat]
  omega

theorem aField_packIdx  : aField (packIdx op a idx imm) = a := by
  have := a.isLt; have := idx.isLt; have := imm.isLt
  apply Fin.ext
  simp only [aField, packIdx, bits, BitVec.toNat_ofNat, Fin.val_ofNat]
  omega

theorem idxField_packIdx  : idxField (packIdx op a idx imm) = idx := by
  have := a.isLt; have := idx.isLt; have := imm.isLt
  apply Fin.ext
  simp only [idxField, packIdx, bits, BitVec.toNat_ofNat, Fin.val_ofNat]
  omega

theorem immField_packIdx  : immField (packIdx op a idx imm) = imm := by
  have := a.isLt; have := idx.isLt; have := imm.isLt
  apply BitVec.eq_of_toNat_eq
  simp only [immField, packIdx, bits, BitVec.toNat_ofNat]
  omega

theorem bits_packIdx_x : bits (packIdx op a idx 0) 11 0 = 0 := by
  have := a.isLt; have := idx.isLt
  have h0 : BitVec.toNat (0 : BitVec 12) = 0 := rfl
  simp only [packIdx, bits, BitVec.toNat_ofNat, h0]
  omega

/-! ### The format check -/

/-- What passes the format check is the command given, its zero bits clear and itself well formed. -/
theorem inFormat_command {f : CmdFormat} {w : Word} {i j : Instr} :
    inFormat f w i = .command j ↔ f.zerosClear w = true ∧ i.wellFormed = true ∧ i = j := by
  unfold inFormat
  split
  · split <;> simp_all
  · simp_all

/-! ### A word is its fields: one lemma per format, the format's zero bits clear -/

section Fields

variable {w : Word}

theorem packRegs_fields_z (hz : CmdFormat.z.zerosClear w = true) : packRegs (opField w) 0 0 0 0 = w := by
  have := w.isLt
  apply BitVec.eq_of_toNat_eq
  simp only [CmdFormat.zerosClear, bits, beq_iff_eq] at hz
  simp only [packRegs, opField, bits, BitVec.toNat_ofNat, Fin.val_zero]
  omega

theorem packRegs_fields_r3 (hz : CmdFormat.r3.zerosClear w = true) :
    packRegs (opField w) (aField w) (bField w) (cField w) 0 = w := by
  have := w.isLt
  apply BitVec.eq_of_toNat_eq
  simp only [CmdFormat.zerosClear, bits, beq_iff_eq] at hz
  simp only [packRegs, opField, aField, bField, cField, bits, BitVec.toNat_ofNat, Fin.val_ofNat]
  omega

theorem packRegs_fields_r2 (hz : CmdFormat.r2.zerosClear w = true) :
    packRegs (opField w) (aField w) (bField w) 0 0 = w := by
  have := w.isLt
  apply BitVec.eq_of_toNat_eq
  simp only [CmdFormat.zerosClear, bits, beq_iff_eq] at hz
  simp only [packRegs, opField, aField, bField, bits, BitVec.toNat_ofNat, Fin.val_ofNat, Fin.val_zero]
  omega

theorem packRegs_fields_r1 (hz : CmdFormat.r1.zerosClear w = true) :
    packRegs (opField w) (aField w) 0 0 0 = w := by
  have := w.isLt
  apply BitVec.eq_of_toNat_eq
  simp only [CmdFormat.zerosClear, bits, beq_iff_eq] at hz
  simp only [packRegs, opField, aField, bits, BitVec.toNat_ofNat, Fin.val_ofNat, Fin.val_zero]
  omega

theorem packRegs_fields_g (hz : CmdFormat.g.zerosClear w = true) :
    packRegs (opField w) (aField w) (bField w) 0 (domField w).toNat = w := by
  have := w.isLt
  apply BitVec.eq_of_toNat_eq
  simp only [CmdFormat.zerosClear, bits, beq_iff_eq] at hz
  simp only [packRegs, opField, aField, bField, domField, bits, BitVec.toNat_ofNat, Fin.val_ofNat, Fin.val_zero]
  omega

theorem packAddr_fields_m (hz : CmdFormat.m.zerosClear w = true) :
    packAddr (opField w) (aField w) (addrField w) = w := by
  have := w.isLt
  apply BitVec.eq_of_toNat_eq
  simp only [CmdFormat.zerosClear, bits, beq_iff_eq] at hz
  simp only [packAddr, opField, aField, addrField, bits, BitVec.toNat_ofNat, Fin.val_ofNat]
  omega

theorem packAddr_fields_a (hz : CmdFormat.a.zerosClear w = true) :
    packAddr (opField w) 0 (addrField w) = w := by
  have := w.isLt
  apply BitVec.eq_of_toNat_eq
  simp only [CmdFormat.zerosClear, bits, beq_iff_eq] at hz
  simp only [packAddr, opField, addrField, bits, BitVec.toNat_ofNat, Fin.val_zero]
  omega

theorem packLen_fields : packLen (opField w) (lenField w) (addrField w) = w := by
  have := w.isLt
  apply BitVec.eq_of_toNat_eq
  simp only [packLen, opField, lenField, addrField, bits, BitVec.toNat_ofNat]
  omega

theorem packIdx_fields_i : packIdx (opField w) (aField w) (idxField w) (immField w) = w := by
  have := w.isLt
  apply BitVec.eq_of_toNat_eq
  simp only [packIdx, opField, aField, idxField, immField, bits, BitVec.toNat_ofNat, Fin.val_ofNat]
  omega

theorem packIdx_fields_x (hz : CmdFormat.x.zerosClear w = true) :
    packIdx (opField w) (aField w) (idxField w) 0 = w := by
  have := w.isLt
  have h0 : BitVec.toNat (0 : BitVec 12) = 0 := rfl
  apply BitVec.eq_of_toNat_eq
  simp only [CmdFormat.zerosClear, bits, beq_iff_eq] at hz
  simp only [packIdx, opField, aField, idxField, bits, BitVec.toNat_ofNat, Fin.val_ofNat, h0]
  omega

end Fields

/-! ### One equation per opcode -/

theorem decodeWord_nop {w : Word} (h : opField w = 0x00) :
    decodeWord w = inFormat .z w .nop := by
  unfold decodeWord; rw [h]; rfl

theorem decodeWord_clrerr {w : Word} (h : opField w = 0x01) :
    decodeWord w = inFormat .z w .clrerr := by
  unfold decodeWord; rw [h]; rfl

theorem decodeWord_radd {w : Word} (h : opField w = 0x10) :
    decodeWord w = inFormat .r3 w (.radd (aField w) (bField w) (cField w)) := by
  unfold decodeWord; rw [h]; rfl

theorem decodeWord_rsub {w : Word} (h : opField w = 0x11) :
    decodeWord w = inFormat .r3 w (.rsub (aField w) (bField w) (cField w)) := by
  unfold decodeWord; rw [h]; rfl

theorem decodeWord_rmul {w : Word} (h : opField w = 0x12) :
    decodeWord w = inFormat .r3 w (.rmul (aField w) (bField w) (cField w)) := by
  unfold decodeWord; rw [h]; rfl

theorem decodeWord_rred {w : Word} (h : opField w = 0x13) :
    decodeWord w = inFormat .r1 w (.rred (aField w)) := by
  unfold decodeWord; rw [h]; rfl

theorem decodeWord_req {w : Word} (h : opField w = 0x14) :
    decodeWord w = inFormat .r2 w (.req (aField w) (bField w)) := by
  unfold decodeWord; rw [h]; rfl

theorem decodeWord_rgen {w : Word} (h : opField w = 0x15) :
    decodeWord w = inFormat .g w (.rgen (aField w) (bField w) (domField w)) := by
  unfold decodeWord; rw [h]; rfl

theorem decodeWord_ldr {w : Word} (h : opField w = 0x20) :
    decodeWord w = inFormat .m w (.ldr (aField w) (addrField w)) := by
  unfold decodeWord; rw [h]; rfl

theorem decodeWord_str {w : Word} (h : opField w = 0x21) :
    decodeWord w = inFormat .m w (.str (aField w) (addrField w)) := by
  unfold decodeWord; rw [h]; rfl

theorem decodeWord_lds {w : Word} (h : opField w = 0x22) :
    decodeWord w = inFormat .m w (.lds (aField w) (addrField w)) := by
  unfold decodeWord; rw [h]; rfl

theorem decodeWord_sts {w : Word} (h : opField w = 0x23) :
    decodeWord w = inFormat .m w (.sts (aField w) (addrField w)) := by
  unfold decodeWord; rw [h]; rfl

theorem decodeWord_rzero {w : Word} (h : opField w = 0x24) :
    decodeWord w = inFormat .r1 w (.rzero (aField w)) := by
  unfold decodeWord; rw [h]; rfl

theorem decodeWord_rsetl {w : Word} (h : opField w = 0x25) :
    decodeWord w = inFormat .i w (.rsetl (aField w) (idxField w) (immField w)) := by
  unfold decodeWord; rw [h]; rfl

theorem decodeWord_rgetl {w : Word} (h : opField w = 0x26) :
    decodeWord w = inFormat .x w (.rgetl (aField w) (idxField w)) := by
  unfold decodeWord; rw [h]; rfl

theorem decodeWord_compress {w : Word} (h : opField w = 0x30) :
    decodeWord w = inFormat .r3 w (.compress (aField w) (bField w) (cField w)) := by
  unfold decodeWord; rw [h]; rfl

theorem decodeWord_decompress {w : Word} (h : opField w = 0x31) :
    decodeWord w = inFormat .r2 w (.decompress (aField w) (bField w)) := by
  unfold decodeWord; rw [h]; rfl

theorem decodeWord_ksize {w : Word} (h : opField w = 0x32) :
    decodeWord w = inFormat .z w .ksize := by
  unfold decodeWord; rw [h]; rfl

theorem decodeWord_sksize {w : Word} (h : opField w = 0x33) :
    decodeWord w = inFormat .z w .sksize := by
  unfold decodeWord; rw [h]; rfl

theorem decodeWord_sklds {w : Word} (h : opField w = 0x38) :
    decodeWord w = inFormat .a w (.sklds (addrField w)) := by
  unfold decodeWord; rw [h]; rfl

theorem decodeWord_sksts {w : Word} (h : opField w = 0x39) :
    decodeWord w = inFormat .a w (.sksts (addrField w)) := by
  unfold decodeWord; rw [h]; rfl

theorem decodeWord_sklda {w : Word} (h : opField w = 0x3A) :
    decodeWord w = inFormat .l w (.sklda (addrField w) (lenField w)) := by
  unfold decodeWord; rw [h]; rfl

theorem decodeWord_sksta {w : Word} (h : opField w = 0x3B) :
    decodeWord w = inFormat .a w (.sksta (addrField w)) := by
  unfold decodeWord; rw [h]; rfl

theorem decodeWord_skldc {w : Word} (h : opField w = 0x3C) :
    decodeWord w = inFormat .a w (.skldc (addrField w)) := by
  unfold decodeWord; rw [h]; rfl

theorem decodeWord_skstc {w : Word} (h : opField w = 0x3D) :
    decodeWord w = inFormat .a w (.skstc (addrField w)) := by
  unfold decodeWord; rw [h]; rfl

theorem decodeWord_skldp {w : Word} (h : opField w = 0x3E) :
    decodeWord w = inFormat .l w (.skldp (addrField w) (lenField w)) := by
  unfold decodeWord; rw [h]; rfl

theorem decodeWord_skstp {w : Word} (h : opField w = 0x3F) :
    decodeWord w = inFormat .a w (.skstp (addrField w)) := by
  unfold decodeWord; rw [h]; rfl

end Sys2Proof
end

