-- ==== Sys2Proof/Laws/Vec.lean ====
section
/-! SUPPORT. The small lemmas of the fixed-length sequence: what an entry is after building, reading and writing. -/

namespace Sys2Proof.Vec

variable {α : Type} {n w : Nat}

@[ext] theorem ext_toList {u v : Vec α n} (h : u.toList = v.toList) : u = v := by
  cases u; cases v; simp_all

theorem getElem?_tabFrom (f : Nat → α) (k s i : Nat) :
    (tabFrom f k s)[i]? = if i < k then some (f (s + i)) else none := by
  induction k generalizing s i with
  | zero => simp [tabFrom]
  | succ k ih =>
    cases i with
    | zero => simp [tabFrom]
    | succ i => simp [tabFrom, ih, Nat.add_left_comm, Nat.add_comm]

@[simp] theorem toList_tab (f : Nat → α) : (tab n f).toList = tabFrom f n 0 := rfl

/-- Entry `i` of a tabulated sequence is `f i`. -/
theorem nth_tab (f : Nat → BitVec w) {i : Nat} (h : i < n) : (tab n f).nth i = f i := by
  simp [nth, List.getD, getElem?_tabFrom, h]

theorem get_tab (f : Nat → α) (i : Fin n) : (tab n f).get i = f i := by
  have h := getElem?_tabFrom f n 0 i.val
  simp only [i.isLt, if_true, Nat.zero_add] at h
  have := (List.getElem?_eq_some_iff.1 h).2
  simpa [get] using this

/-- Two sequences of words are equal when their entries are. -/
theorem ext_nth {u v : Vec (BitVec w) n} (h : ∀ i < n, u.nth i = v.nth i) : u = v := by
  apply ext_toList
  apply List.ext_getElem (u.length_eq.trans v.length_eq.symm)
  intro i hu hv
  have hi : i < n := by rw [← u.length_eq]; exact hu
  simpa [nth, List.getD, hu, hv] using h i hi

theorem nth_eq_get (v : Vec (BitVec w) n) (i : Fin n) : v.nth i = v.get i := by
  have h : i.val < v.toList.length := by rw [v.length_eq]; exact i.isLt
  simp [nth, get, List.getD, h]

/-- Entry `j` after entry `i` is replaced. -/
theorem get_set (v : Vec α n) (i j : Fin n) (x : α) : (v.set i x).get j = if j = i then x else v.get j := by
  simp only [get, set, List.getElem_set, Fin.ext_iff, eq_comm (a := i.val)]

@[simp] theorem get_set_same (v : Vec α n) (i : Fin n) (x : α) : (v.set i x).get i = x := by
  simp [get_set]

theorem nth_set (v : Vec (BitVec w) n) (i : Fin n) (x : BitVec w) {j : Nat} (h : j < n) :
    (v.set i x).nth j = if j = i.val then x else v.nth j := by
  have := get_set v i ⟨j, h⟩ x
  rw [← nth_eq_get, ← nth_eq_get] at this
  simpa [Fin.ext_iff] using this

theorem ext_get {u v : Vec α n} (h : ∀ i : Fin n, u.get i = v.get i) : u = v := by
  apply ext_toList
  apply List.ext_getElem (u.length_eq.trans v.length_eq.symm)
  intro i hu hv
  simpa [get] using h ⟨i, by rw [← u.length_eq]; exact hu⟩

@[simp] theorem set_get (v : Vec α n) (i : Fin n) : v.set i (v.get i) = v := by
  apply ext_get; intro j; rw [get_set]; split <;> simp_all

@[simp] theorem set_set (v : Vec α n) (i : Fin n) (x y : α) : (v.set i x).set i y = v.set i y := by
  apply ext_get; intro j; simp only [get_set]; split <;> rfl

end Sys2Proof.Vec
end

