-- ==== Sys2Proof/Laws/Memory.lean ====
section
/-! SUPPORT. Operand memory: read after write, that every memory operation keeps the canonical form, and that equal
memories are equal data. -/

namespace Sys2Proof.Machine

open Sys2Proof

namespace Memory

/-- Read after write of one byte. -/
theorem lookup_write (m : Memory) (a : Nat) (v : Byte) (b : Nat) :
    (m.write a v).lookup b = if b = a then some v else m.lookup b := by
  induction m with
  | nil => simp [write, lookup]
  | cons c m ih =>
    obtain ⟨k, u⟩ := c
    simp only [write]
    split
    · simp [lookup]
    · split
      · subst_vars; simp [lookup]; split <;> simp_all
      · rename_i _ hak
        simp only [lookup, ih]
        by_cases hbk : b = k
        · subst hbk; simp [Ne.symm hak]
        · simp [hbk]

/-- Read after write of a sequence of bytes. -/
theorem lookup_writeBytes (m : Memory) (a : Nat) (bs : List Byte) (b : Nat) :
    (m.writeBytes a bs).lookup b = if a ≤ b ∧ b < a + bs.length then bs[b - a]? else m.lookup b := by
  induction bs generalizing a with
  | nil =>
    have : ¬ (a ≤ b ∧ b < a + ([] : List Byte).length) := by simp
    rw [if_neg this]; simp [writeBytes]
  | cons v bs ih =>
    rw [writeBytes, lookup_write, ih]
    by_cases h : b = a
    · subst h; simp
    · simp only [h, if_false, List.length_cons]
      by_cases h2 : a + 1 ≤ b ∧ b < a + 1 + bs.length
      · have h3 : a ≤ b ∧ b < a + (bs.length + 1) := by omega
        have h4 : b - a = (b - (a + 1)) + 1 := by omega
        rw [if_pos h2, if_pos h3, h4, List.getElem?_cons_succ]
      · have h3 : ¬ (a ≤ b ∧ b < a + (bs.length + 1)) := by omega
        rw [if_neg h2, if_neg h3]

/-- A written address is the written one or was listed. -/
theorem mem_write {m : Memory} {a : Nat} {v : Byte} {c : Host.Cell} (h : c ∈ m.write a v) : c = (a, v) ∨ c ∈ m := by
  induction m with
  | nil => simpa [write] using h
  | cons d m ih =>
    obtain ⟨k, u⟩ := d
    simp only [write] at h
    split at h
    · simpa using h
    · split at h
      · rcases List.mem_cons.1 h with h | h
        · exact .inl h
        · exact .inr (List.mem_cons_of_mem _ h)
      · rcases List.mem_cons.1 h with h | h
        · exact .inr (h ▸ List.mem_cons_self)
        · exact (ih h).imp id (List.mem_cons_of_mem _)

/-- Writing a byte inside operand memory keeps the canonical form. -/
theorem wf_write {m : Memory} (h : m.wf) {a : Nat} (ha : a < Config.OMEM_BYTES) (v : Byte) : (m.write a v).wf := by
  refine ⟨?_, fun c hc => (mem_write hc).elim (fun e => e ▸ ha) (h.2 c)⟩
  obtain ⟨hp, -⟩ := h
  induction m with
  | nil => simp [write]
  | cons d m ih =>
    obtain ⟨k, u⟩ := d
    have ⟨hk, hm⟩ := List.pairwise_cons.1 hp
    simp only [write]
    split
    · rename_i hak
      refine List.pairwise_cons.2 ⟨fun c hc => ?_, hp⟩
      rcases List.mem_cons.1 hc with rfl | hc
      · exact hak
      · exact Nat.lt_trans hak (hk c hc)
    · split
      · subst_vars; exact List.pairwise_cons.2 ⟨fun c hc => hk c hc, hm⟩
      · refine List.pairwise_cons.2 ⟨fun c hc => ?_, ih hm⟩
        rcases mem_write hc with rfl | hc
        · show k < a; omega
        · exact hk c hc

/-- Writing bytes inside operand memory keeps the canonical form. -/
theorem wf_writeBytes {m : Memory} (h : m.wf) {a : Nat} {bs : List Byte} (ha : a + bs.length ≤ Config.OMEM_BYTES) :
    (m.writeBytes a bs).wf := by
  induction bs generalizing a with
  | nil => simpa [writeBytes] using h
  | cons v bs ih =>
    simp only [List.length_cons] at ha
    exact wf_write (ih (by omega)) (by omega) v

/-- An address below every listed one is not listed. -/
theorem lookup_none {m : Memory} {a : Nat} (h : ∀ c ∈ m, a < c.1) : m.lookup a = none := by
  induction m with
  | nil => rfl
  | cons c m ih =>
    have := h c (by simp)
    rw [lookup, if_neg (by omega), ih fun d hd => h d (by simp [hd])]

/-- Equal memories are equal data: two memories in canonical form that read the same everywhere are one list. -/
theorem ext_wf {m n : Memory} (hm : m.wf) (hn : n.wf) (h : ∀ a, m.lookup a = n.lookup a) : m = n := by
  obtain ⟨hm, -⟩ := hm
  obtain ⟨hn, -⟩ := hn
  induction m generalizing n with
  | nil =>
    cases n with
    | nil => rfl
    | cons d n => have := h d.1; simp [lookup, Memory.unlisted] at this
  | cons c m ih =>
    cases n with
    | nil => have := h c.1; simp [lookup, Memory.unlisted] at this
    | cons d n =>
      obtain ⟨k, u⟩ := c
      obtain ⟨l, v⟩ := d
      have ⟨hk, hm'⟩ := List.pairwise_cons.1 hm
      have ⟨hl, hn'⟩ := List.pairwise_cons.1 hn
      have hkl : k = l := by
        rcases Nat.lt_trichotomy k l with hlt | heq | hgt
        · have hk' := h k
          rw [lookup, if_pos rfl, lookup, if_neg (by omega), lookup_none fun c hc => by have := hl c hc; omega] at hk'
          cases hk'
        · exact heq
        · have hl' := h l
          rw [lookup, if_neg (by omega), lookup_none fun c hc => by have := hk c hc; omega, lookup, if_pos rfl] at hl'
          cases hl'
      subst hkl
      have huv := h k
      simp only [lookup, if_true, Option.some.injEq] at huv
      subst huv
      congr 1
      refine ih (fun a => ?_) hm' hn'
      by_cases ha : a = k
      · subst ha; rw [lookup_none hk, lookup_none hl]
      · simpa [lookup, ha] using h a

/-- Writing the same bytes twice is writing them once. -/
theorem writeBytes_twice {m : Memory} (h : m.wf) {a : Nat} {bs : List Byte} (ha : a + bs.length ≤ Config.OMEM_BYTES) :
    (m.writeBytes a bs).writeBytes a bs = m.writeBytes a bs := by
  refine ext_wf (wf_writeBytes (wf_writeBytes h ha) ha) (wf_writeBytes h ha) fun b => ?_
  simp only [lookup_writeBytes]
  split <;> rfl

/-- Reset memory is in canonical form. -/
theorem wf_nil : Memory.wf [] := ⟨.nil, fun _ h => nomatch h⟩

end Memory

namespace State

/-- One byte read after bytes are written: `bs[b - a]` inside the written range, the old byte outside it. -/
theorem readByte_memWrite (s : State) (a : Nat) (bs : List Byte) (b : Nat) :
    (s.memWrite a bs).readByte b = if h : a ≤ b ∧ b - a < bs.length then bs[b - a] else s.readByte b := by
  simp only [readByte, memWrite, Memory.lookup_writeBytes]
  by_cases h : a ≤ b ∧ b - a < bs.length
  · have h' : a ≤ b ∧ b < a + bs.length := by omega
    rw [dif_pos h, if_pos h', List.getElem?_eq_getElem h.2]
  · have h' : ¬ (a ≤ b ∧ b < a + bs.length) := by omega
    rw [dif_neg h, if_neg h']

theorem nth_memRead (s : State) (a n : Nat) {j : Nat} (h : j < n) : (s.memRead a n).nth j = s.readByte (a + j) :=
  Vec.nth_tab _ h

/-- A load of a range that was just stored returns what was stored. -/
theorem memRead_memWrite (s : State) (a n : Nat) (v : Vec Byte n) : (s.memWrite a v.toList).memRead a n = v := by
  apply Vec.ext_nth
  intro j hj
  have hl : j < v.toList.length := v.length_eq.symm ▸ hj
  have h2 : a ≤ a + j ∧ a + j - a < v.toList.length := by omega
  rw [nth_memRead _ _ _ hj, readByte_memWrite, dif_pos h2]
  simp [Vec.nth, List.getD, hl]

end State

end Sys2Proof.Machine
end

