-- ==== Sys2Proof/Laws/State.lean ====
section
/-! SUPPORT. One lemma per field per update of the state, and what the accessors read after each update. -/

namespace Sys2Proof.Machine.State

open Sys2Proof

variable (s : State)

/-! ### setRing -/

@[simp] theorem setRing_ring (r : RingReg) (x : RingElem) : (s.setRing r x).ring = s.ring.set r x := rfl
@[simp] theorem setRing_seeds (r : RingReg) (x : RingElem) : (s.setRing r x).seeds = s.seeds := rfl
@[simp] theorem setRing_sk (r : RingReg) (x : RingElem) : (s.setRing r x).sk = s.sk := rfl
@[simp] theorem setRing_cmdcnt (r : RingReg) (x : RingElem) : (s.setRing r x).cmdcnt = s.cmdcnt := rfl
@[simp] theorem setRing_status (r : RingReg) (x : RingElem) : (s.setRing r x).status = s.status := rfl
@[simp] theorem setRing_result (r : RingReg) (x : RingElem) : (s.setRing r x).result = s.result := rfl
@[simp] theorem setRing_esticky (r : RingReg) (x : RingElem) : (s.setRing r x).esticky = s.esticky := rfl
@[simp] theorem setRing_rval (r : RingReg) (x : RingElem) : (s.setRing r x).rval = s.rval := rfl
@[simp] theorem setRing_fcause (r : RingReg) (x : RingElem) : (s.setRing r x).fcause = s.fcause := rfl
@[simp] theorem setRing_fcmd (r : RingReg) (x : RingElem) : (s.setRing r x).fcmd = s.fcmd := rfl
@[simp] theorem setRing_omem (r : RingReg) (x : RingElem) : (s.setRing r x).omem = s.omem := rfl
@[simp] theorem setRing_epoch (r : RingReg) (x : RingElem) : (s.setRing r x).epoch = s.epoch := rfl
@[simp] theorem setRing_host (r : RingReg) (x : RingElem) : (s.setRing r x).host = s.host := rfl

theorem ringReg_setRing (r : RingReg) (x : RingElem) (q : RingReg) :
    (s.setRing r x).ringReg q = if q = r then x else s.ringReg q := Vec.get_set ..
@[simp] theorem ringReg_setRing_same (r : RingReg) (x : RingElem) : (s.setRing r x).ringReg r = x :=
  Vec.get_set_same ..
@[simp] theorem seedReg_setRing (r : RingReg) (x : RingElem) (q : SeedReg) : (s.setRing r x).seedReg q = s.seedReg q := rfl
@[simp] theorem readByte_setRing (r : RingReg) (x : RingElem) (p : Nat) : (s.setRing r x).readByte p = s.readByte p := rfl
@[simp] theorem faulted_setRing (r : RingReg) (x : RingElem) : (s.setRing r x).faulted = s.faulted := rfl

/-! ### setSeed -/

@[simp] theorem setSeed_ring (k : SeedReg) (x : Seed) : (s.setSeed k x).ring = s.ring := rfl
@[simp] theorem setSeed_seeds (k : SeedReg) (x : Seed) : (s.setSeed k x).seeds = s.seeds.set k x := rfl
@[simp] theorem setSeed_sk (k : SeedReg) (x : Seed) : (s.setSeed k x).sk = s.sk := rfl
@[simp] theorem setSeed_cmdcnt (k : SeedReg) (x : Seed) : (s.setSeed k x).cmdcnt = s.cmdcnt := rfl
@[simp] theorem setSeed_status (k : SeedReg) (x : Seed) : (s.setSeed k x).status = s.status := rfl
@[simp] theorem setSeed_result (k : SeedReg) (x : Seed) : (s.setSeed k x).result = s.result := rfl
@[simp] theorem setSeed_esticky (k : SeedReg) (x : Seed) : (s.setSeed k x).esticky = s.esticky := rfl
@[simp] theorem setSeed_rval (k : SeedReg) (x : Seed) : (s.setSeed k x).rval = s.rval := rfl
@[simp] theorem setSeed_fcause (k : SeedReg) (x : Seed) : (s.setSeed k x).fcause = s.fcause := rfl
@[simp] theorem setSeed_fcmd (k : SeedReg) (x : Seed) : (s.setSeed k x).fcmd = s.fcmd := rfl
@[simp] theorem setSeed_omem (k : SeedReg) (x : Seed) : (s.setSeed k x).omem = s.omem := rfl
@[simp] theorem setSeed_epoch (k : SeedReg) (x : Seed) : (s.setSeed k x).epoch = s.epoch := rfl
@[simp] theorem setSeed_host (k : SeedReg) (x : Seed) : (s.setSeed k x).host = s.host := rfl

@[simp] theorem ringReg_setSeed (k : SeedReg) (x : Seed) (q : RingReg) : (s.setSeed k x).ringReg q = s.ringReg q := rfl
theorem seedReg_setSeed (k : SeedReg) (x : Seed) (q : SeedReg) :
    (s.setSeed k x).seedReg q = if q = k then x else s.seedReg q := Vec.get_set ..
@[simp] theorem seedReg_setSeed_same (k : SeedReg) (x : Seed) : (s.setSeed k x).seedReg k = x :=
  Vec.get_set_same ..
@[simp] theorem readByte_setSeed (k : SeedReg) (x : Seed) (p : Nat) : (s.setSeed k x).readByte p = s.readByte p := rfl
@[simp] theorem faulted_setSeed (k : SeedReg) (x : Seed) : (s.setSeed k x).faulted = s.faulted := rfl

/-! ### setSketch -/

@[simp] theorem setSketch_ring (k : Sketch) : (s.setSketch k).ring = s.ring := rfl
@[simp] theorem setSketch_seeds (k : Sketch) : (s.setSketch k).seeds = s.seeds := rfl
@[simp] theorem setSketch_sk (k : Sketch) : (s.setSketch k).sk = k := rfl
@[simp] theorem setSketch_cmdcnt (k : Sketch) : (s.setSketch k).cmdcnt = s.cmdcnt := rfl
@[simp] theorem setSketch_status (k : Sketch) : (s.setSketch k).status = s.status := rfl
@[simp] theorem setSketch_result (k : Sketch) : (s.setSketch k).result = s.result := rfl
@[simp] theorem setSketch_esticky (k : Sketch) : (s.setSketch k).esticky = s.esticky := rfl
@[simp] theorem setSketch_rval (k : Sketch) : (s.setSketch k).rval = s.rval := rfl
@[simp] theorem setSketch_fcause (k : Sketch) : (s.setSketch k).fcause = s.fcause := rfl
@[simp] theorem setSketch_fcmd (k : Sketch) : (s.setSketch k).fcmd = s.fcmd := rfl
@[simp] theorem setSketch_omem (k : Sketch) : (s.setSketch k).omem = s.omem := rfl
@[simp] theorem setSketch_epoch (k : Sketch) : (s.setSketch k).epoch = s.epoch := rfl
@[simp] theorem setSketch_host (k : Sketch) : (s.setSketch k).host = s.host := rfl

@[simp] theorem ringReg_setSketch (k : Sketch) (q : RingReg) : (s.setSketch k).ringReg q = s.ringReg q := rfl
@[simp] theorem seedReg_setSketch (k : Sketch) (q : SeedReg) : (s.setSketch k).seedReg q = s.seedReg q := rfl
@[simp] theorem readByte_setSketch (k : Sketch) (p : Nat) : (s.setSketch k).readByte p = s.readByte p := rfl
@[simp] theorem faulted_setSketch (k : Sketch) : (s.setSketch k).faulted = s.faulted := rfl

/-! ### setRval -/

@[simp] theorem setRval_ring (v : Word) : (s.setRval v).ring = s.ring := rfl
@[simp] theorem setRval_seeds (v : Word) : (s.setRval v).seeds = s.seeds := rfl
@[simp] theorem setRval_sk (v : Word) : (s.setRval v).sk = s.sk := rfl
@[simp] theorem setRval_cmdcnt (v : Word) : (s.setRval v).cmdcnt = s.cmdcnt := rfl
@[simp] theorem setRval_status (v : Word) : (s.setRval v).status = s.status := rfl
@[simp] theorem setRval_result (v : Word) : (s.setRval v).result = s.result := rfl
@[simp] theorem setRval_esticky (v : Word) : (s.setRval v).esticky = s.esticky := rfl
@[simp] theorem setRval_rval (v : Word) : (s.setRval v).rval = v := rfl
@[simp] theorem setRval_fcause (v : Word) : (s.setRval v).fcause = s.fcause := rfl
@[simp] theorem setRval_fcmd (v : Word) : (s.setRval v).fcmd = s.fcmd := rfl
@[simp] theorem setRval_omem (v : Word) : (s.setRval v).omem = s.omem := rfl
@[simp] theorem setRval_epoch (v : Word) : (s.setRval v).epoch = s.epoch := rfl
@[simp] theorem setRval_host (v : Word) : (s.setRval v).host = s.host := rfl

@[simp] theorem ringReg_setRval (v : Word) (q : RingReg) : (s.setRval v).ringReg q = s.ringReg q := rfl
@[simp] theorem seedReg_setRval (v : Word) (q : SeedReg) : (s.setRval v).seedReg q = s.seedReg q := rfl
@[simp] theorem readByte_setRval (v : Word) (p : Nat) : (s.setRval v).readByte p = s.readByte p := rfl
@[simp] theorem faulted_setRval (v : Word) : (s.setRval v).faulted = s.faulted := rfl

/-! ### memWrite -/

@[simp] theorem memWrite_ring (a : Nat) (bs : List Byte) : (s.memWrite a bs).ring = s.ring := rfl
@[simp] theorem memWrite_seeds (a : Nat) (bs : List Byte) : (s.memWrite a bs).seeds = s.seeds := rfl
@[simp] theorem memWrite_sk (a : Nat) (bs : List Byte) : (s.memWrite a bs).sk = s.sk := rfl
@[simp] theorem memWrite_cmdcnt (a : Nat) (bs : List Byte) : (s.memWrite a bs).cmdcnt = s.cmdcnt := rfl
@[simp] theorem memWrite_status (a : Nat) (bs : List Byte) : (s.memWrite a bs).status = s.status := rfl
@[simp] theorem memWrite_result (a : Nat) (bs : List Byte) : (s.memWrite a bs).result = s.result := rfl
@[simp] theorem memWrite_esticky (a : Nat) (bs : List Byte) : (s.memWrite a bs).esticky = s.esticky := rfl
@[simp] theorem memWrite_rval (a : Nat) (bs : List Byte) : (s.memWrite a bs).rval = s.rval := rfl
@[simp] theorem memWrite_fcause (a : Nat) (bs : List Byte) : (s.memWrite a bs).fcause = s.fcause := rfl
@[simp] theorem memWrite_fcmd (a : Nat) (bs : List Byte) : (s.memWrite a bs).fcmd = s.fcmd := rfl
@[simp] theorem memWrite_omem (a : Nat) (bs : List Byte) : (s.memWrite a bs).omem = s.omem.writeBytes a bs := rfl
@[simp] theorem memWrite_epoch (a : Nat) (bs : List Byte) : (s.memWrite a bs).epoch = s.epoch := rfl
@[simp] theorem memWrite_host (a : Nat) (bs : List Byte) : (s.memWrite a bs).host = s.host := rfl

@[simp] theorem ringReg_memWrite (a : Nat) (bs : List Byte) (q : RingReg) : (s.memWrite a bs).ringReg q = s.ringReg q := rfl
@[simp] theorem seedReg_memWrite (a : Nat) (bs : List Byte) (q : SeedReg) : (s.memWrite a bs).seedReg q = s.seedReg q := rfl
@[simp] theorem faulted_memWrite (a : Nat) (bs : List Byte) : (s.memWrite a bs).faulted = s.faulted := rfl

/-! ### raiseFault -/

@[simp] theorem raiseFault_ring (c : FaultCause) (w : Word) : (s.raiseFault c w).ring = s.ring := rfl
@[simp] theorem raiseFault_seeds (c : FaultCause) (w : Word) : (s.raiseFault c w).seeds = s.seeds := rfl
@[simp] theorem raiseFault_sk (c : FaultCause) (w : Word) : (s.raiseFault c w).sk = s.sk := rfl
@[simp] theorem raiseFault_cmdcnt (c : FaultCause) (w : Word) : (s.raiseFault c w).cmdcnt = s.cmdcnt := rfl
@[simp] theorem raiseFault_status (c : FaultCause) (w : Word) : (s.raiseFault c w).status = 1 := rfl
@[simp] theorem raiseFault_result (c : FaultCause) (w : Word) : (s.raiseFault c w).result = s.result := rfl
@[simp] theorem raiseFault_esticky (c : FaultCause) (w : Word) : (s.raiseFault c w).esticky = s.esticky := rfl
@[simp] theorem raiseFault_rval (c : FaultCause) (w : Word) : (s.raiseFault c w).rval = s.rval := rfl
@[simp] theorem raiseFault_fcause (c : FaultCause) (w : Word) : (s.raiseFault c w).fcause = c.code := rfl
@[simp] theorem raiseFault_fcmd (c : FaultCause) (w : Word) : (s.raiseFault c w).fcmd = w := rfl
@[simp] theorem raiseFault_omem (c : FaultCause) (w : Word) : (s.raiseFault c w).omem = s.omem := rfl
@[simp] theorem raiseFault_epoch (c : FaultCause) (w : Word) : (s.raiseFault c w).epoch = s.epoch := rfl
@[simp] theorem raiseFault_host (c : FaultCause) (w : Word) : (s.raiseFault c w).host = s.host := rfl

@[simp] theorem ringReg_raiseFault (c : FaultCause) (w : Word) (q : RingReg) : (s.raiseFault c w).ringReg q = s.ringReg q := rfl
@[simp] theorem seedReg_raiseFault (c : FaultCause) (w : Word) (q : SeedReg) : (s.raiseFault c w).seedReg q = s.seedReg q := rfl
@[simp] theorem readByte_raiseFault (c : FaultCause) (w : Word) (p : Nat) : (s.raiseFault c w).readByte p = s.readByte p := rfl
@[simp] theorem faulted_raiseFault (c : FaultCause) (w : Word) : (s.raiseFault c w).faulted = true := by simp [faulted]

/-! ### retire -/

@[simp] theorem retire_ring (c : ResultCode) : (s.retire c).ring = s.ring := rfl
@[simp] theorem retire_seeds (c : ResultCode) : (s.retire c).seeds = s.seeds := rfl
@[simp] theorem retire_sk (c : ResultCode) : (s.retire c).sk = s.sk := rfl
@[simp] theorem retire_cmdcnt (c : ResultCode) : (s.retire c).cmdcnt = s.cmdcnt + 1 := rfl
@[simp] theorem retire_status (c : ResultCode) : (s.retire c).status = s.status := rfl
@[simp] theorem retire_result (c : ResultCode) : (s.retire c).result = c.word := rfl
@[simp] theorem retire_esticky (c : ResultCode) : (s.retire c).esticky = stickyAfter s.esticky c := rfl
@[simp] theorem retire_rval (c : ResultCode) : (s.retire c).rval = s.rval := rfl
@[simp] theorem retire_fcause (c : ResultCode) : (s.retire c).fcause = s.fcause := rfl
@[simp] theorem retire_fcmd (c : ResultCode) : (s.retire c).fcmd = s.fcmd := rfl
@[simp] theorem retire_omem (c : ResultCode) : (s.retire c).omem = s.omem := rfl
@[simp] theorem retire_epoch (c : ResultCode) : (s.retire c).epoch = s.epoch := rfl
@[simp] theorem retire_host (c : ResultCode) : (s.retire c).host = s.host := rfl

@[simp] theorem ringReg_retire (c : ResultCode) (q : RingReg) : (s.retire c).ringReg q = s.ringReg q := rfl
@[simp] theorem seedReg_retire (c : ResultCode) (q : SeedReg) : (s.retire c).seedReg q = s.seedReg q := rfl
@[simp] theorem readByte_retire (c : ResultCode) (p : Nat) : (s.retire c).readByte p = s.readByte p := rfl
@[simp] theorem faulted_retire (c : ResultCode) : (s.retire c).faulted = s.faulted := rfl

/-! ### clearSticky -/

@[simp] theorem clearSticky_ring : (s.clearSticky).ring = s.ring := rfl
@[simp] theorem clearSticky_seeds : (s.clearSticky).seeds = s.seeds := rfl
@[simp] theorem clearSticky_sk : (s.clearSticky).sk = s.sk := rfl
@[simp] theorem clearSticky_cmdcnt : (s.clearSticky).cmdcnt = s.cmdcnt := rfl
@[simp] theorem clearSticky_status : (s.clearSticky).status = s.status := rfl
@[simp] theorem clearSticky_result : (s.clearSticky).result = s.result := rfl
@[simp] theorem clearSticky_esticky : (s.clearSticky).esticky = 0 := rfl
@[simp] theorem clearSticky_rval : (s.clearSticky).rval = s.rval := rfl
@[simp] theorem clearSticky_fcause : (s.clearSticky).fcause = s.fcause := rfl
@[simp] theorem clearSticky_fcmd : (s.clearSticky).fcmd = s.fcmd := rfl
@[simp] theorem clearSticky_omem : (s.clearSticky).omem = s.omem := rfl
@[simp] theorem clearSticky_epoch : (s.clearSticky).epoch = s.epoch := rfl
@[simp] theorem clearSticky_host : (s.clearSticky).host = s.host := rfl

@[simp] theorem ringReg_clearSticky (q : RingReg) : (s.clearSticky).ringReg q = s.ringReg q := rfl
@[simp] theorem seedReg_clearSticky (q : SeedReg) : (s.clearSticky).seedReg q = s.seedReg q := rfl
@[simp] theorem readByte_clearSticky (p : Nat) : (s.clearSticky).readByte p = s.readByte p := rfl
@[simp] theorem faulted_clearSticky : (s.clearSticky).faulted = s.faulted := rfl

/-! ### reply -/

@[simp] theorem reply_ring (r : HostReply) : (s.reply r).ring = s.ring := rfl
@[simp] theorem reply_seeds (r : HostReply) : (s.reply r).seeds = s.seeds := rfl
@[simp] theorem reply_sk (r : HostReply) : (s.reply r).sk = s.sk := rfl
@[simp] theorem reply_cmdcnt (r : HostReply) : (s.reply r).cmdcnt = s.cmdcnt := rfl
@[simp] theorem reply_status (r : HostReply) : (s.reply r).status = s.status := rfl
@[simp] theorem reply_result (r : HostReply) : (s.reply r).result = s.result := rfl
@[simp] theorem reply_esticky (r : HostReply) : (s.reply r).esticky = s.esticky := rfl
@[simp] theorem reply_rval (r : HostReply) : (s.reply r).rval = s.rval := rfl
@[simp] theorem reply_fcause (r : HostReply) : (s.reply r).fcause = s.fcause := rfl
@[simp] theorem reply_fcmd (r : HostReply) : (s.reply r).fcmd = s.fcmd := rfl
@[simp] theorem reply_omem (r : HostReply) : (s.reply r).omem = s.omem := rfl
@[simp] theorem reply_epoch (r : HostReply) : (s.reply r).epoch = s.epoch := rfl
@[simp] theorem reply_host (r : HostReply) : (s.reply r).host = { s.host with replies := r :: s.host.replies } := rfl

@[simp] theorem ringReg_reply (r : HostReply) (q : RingReg) : (s.reply r).ringReg q = s.ringReg q := rfl
@[simp] theorem seedReg_reply (r : HostReply) (q : SeedReg) : (s.reply r).seedReg q = s.seedReg q := rfl
@[simp] theorem readByte_reply (r : HostReply) (p : Nat) : (s.reply r).readByte p = s.readByte p := rfl
@[simp] theorem faulted_reply (r : HostReply) : (s.reply r).faulted = s.faulted := rfl

/-! ### withPending -/

@[simp] theorem withPending_ring (as : List HostAction) : (s.withPending as).ring = s.ring := rfl
@[simp] theorem withPending_seeds (as : List HostAction) : (s.withPending as).seeds = s.seeds := rfl
@[simp] theorem withPending_sk (as : List HostAction) : (s.withPending as).sk = s.sk := rfl
@[simp] theorem withPending_cmdcnt (as : List HostAction) : (s.withPending as).cmdcnt = s.cmdcnt := rfl
@[simp] theorem withPending_status (as : List HostAction) : (s.withPending as).status = s.status := rfl
@[simp] theorem withPending_result (as : List HostAction) : (s.withPending as).result = s.result := rfl
@[simp] theorem withPending_esticky (as : List HostAction) : (s.withPending as).esticky = s.esticky := rfl
@[simp] theorem withPending_rval (as : List HostAction) : (s.withPending as).rval = s.rval := rfl
@[simp] theorem withPending_fcause (as : List HostAction) : (s.withPending as).fcause = s.fcause := rfl
@[simp] theorem withPending_fcmd (as : List HostAction) : (s.withPending as).fcmd = s.fcmd := rfl
@[simp] theorem withPending_omem (as : List HostAction) : (s.withPending as).omem = s.omem := rfl
@[simp] theorem withPending_epoch (as : List HostAction) : (s.withPending as).epoch = s.epoch := rfl
@[simp] theorem withPending_host (as : List HostAction) : (s.withPending as).host = { s.host with pending := as } := rfl

@[simp] theorem ringReg_withPending (as : List HostAction) (q : RingReg) : (s.withPending as).ringReg q = s.ringReg q := rfl
@[simp] theorem seedReg_withPending (as : List HostAction) (q : SeedReg) : (s.withPending as).seedReg q = s.seedReg q := rfl
@[simp] theorem readByte_withPending (as : List HostAction) (p : Nat) : (s.withPending as).readByte p = s.readByte p := rfl
@[simp] theorem faulted_withPending (as : List HostAction) : (s.withPending as).faulted = s.faulted := rfl

/-! ### reset (10_state.md R43) -/

@[simp] theorem resetUnit_cmdcnt : s.resetUnit.cmdcnt = 0 := rfl
@[simp] theorem resetUnit_status : s.resetUnit.status = 0 := rfl
@[simp] theorem resetUnit_result : s.resetUnit.result = 0 := rfl
@[simp] theorem resetUnit_esticky : s.resetUnit.esticky = 0 := rfl
@[simp] theorem resetUnit_rval : s.resetUnit.rval = 0 := rfl
@[simp] theorem resetUnit_fcause : s.resetUnit.fcause = 0 := rfl
@[simp] theorem resetUnit_fcmd : s.resetUnit.fcmd = 0 := rfl
@[simp] theorem resetUnit_omem : s.resetUnit.omem = [] := rfl
@[simp] theorem resetUnit_epoch : s.resetUnit.epoch = s.epoch + 1 := rfl
@[simp] theorem resetUnit_host : s.resetUnit.host = s.host := rfl
@[simp] theorem resetUnit_alen : s.resetUnit.sk.alen = 0 := rfl
@[simp] theorem resetUnit_plen : s.resetUnit.sk.plen = 0 := rfl
@[simp] theorem faulted_resetUnit : s.resetUnit.faulted = false := by simp [faulted, resetUnit, State.atReset]

/-! ### repeated updates of one register -/

@[simp] theorem setRing_setRing (r : RingReg) (x y : RingElem) : (s.setRing r x).setRing r y = s.setRing r y := by
  simp [setRing]

@[simp] theorem setRing_ringReg (r : RingReg) : s.setRing r (s.ringReg r) = s := by
  simp [setRing, ringReg]

end Sys2Proof.Machine.State
end

