-- ==== Sys2Proof/Laws/Ops.lean ====
section
/-! SUPPORT. What each shared operation can do, said once: transfers, issuing, host actions, the step. -/

namespace Sys2Proof.Machine

open Sys2Proof

/-! ### Result codes and sticky bits -/

@[simp] theorem ok_word : ResultCode.ok.word = 0 := rfl
@[simp] theorem invalidInput_word : ResultCode.invalidInput.word = 1 := rfl
@[simp] theorem checksumMismatch_word : ResultCode.checksumMismatch.word = 2 := rfl
@[simp] theorem reconstructionFailed_word : ResultCode.reconstructionFailed.word = 3 := rfl
@[simp] theorem illegalCmd_code : FaultCause.illegalCmd.code = 1 := rfl
@[simp] theorem addrRange_code : FaultCause.addrRange.code = 2 := rfl

@[simp] theorem stickyAfter_ok (e : Word) : stickyAfter e .ok = e := rfl
@[simp] theorem stickyAfter_invalidInput (e : Word) : stickyAfter e .invalidInput = e ||| 2 := rfl
@[simp] theorem stickyAfter_checksumMismatch (e : Word) : stickyAfter e .checksumMismatch = e ||| 4 := rfl

/-! ### Transfers -/

theorem transfer_inRange {w : Word} {addr : Addr} {n : Nat} {act : State → State} {s : State}
    (h : InRange addr.toNat n) : transfer w addr n act s = .next ((act s).retire .ok) := if_pos h

theorem transfer_outOfRange {w : Word} {addr : Addr} {n : Nat} {act : State → State} {s : State}
    (h : ¬ InRange addr.toNat n) : transfer w addr n act s = .next (s.raiseFault .addrRange w) := if_neg h

/-- Everything a transfer can answer. -/
theorem transfer_next {w : Word} {addr : Addr} {n : Nat} {act : State → State} {s t : State}
    (h : transfer w addr n act s = .next t) :
    (InRange addr.toNat n ∧ t = (act s).retire .ok) ∨ (¬ InRange addr.toNat n ∧ t = s.raiseFault .addrRange w) := by
  by_cases hr : InRange addr.toNat n
  · rw [transfer_inRange hr] at h; cases h; exact .inl ⟨hr, rfl⟩
  · rw [transfer_outOfRange hr] at h; cases h; exact .inr ⟨hr, rfl⟩

/-- A transfer always answers a next state. -/
theorem transfer_total (w : Word) (addr : Addr) (n : Nat) (act : State → State) (s : State) :
    ∃ t, transfer w addr n act s = .next t := by
  by_cases hr : InRange addr.toNat n
  · exact ⟨_, transfer_inRange hr⟩
  · exact ⟨_, transfer_outOfRange hr⟩

/-- Every command answers a next state: nothing in LC-CORE stops the machine without an effect. -/
theorem exec_total (i : Instr) (s : State) : ∃ t, exec i s = .next t := by
  cases i
  case decompress =>
    simp only [exec, execDecompress]
    split
    · exact ⟨_, rfl⟩
    · split
      · exact ⟨_, rfl⟩
      · split <;> exact ⟨_, rfl⟩
  all_goals
    simp only [exec, execLdr, execStr, execLds, execSts, execSklds, execSksts, execSklda, execSksta, execSkldc, execSkstc,
      execSkldp, execSkstp]
    first
    | exact transfer_total ..
    | exact ⟨_, rfl⟩

/-! ### Issuing a command -/

theorem issue_faulted {w : Word} {s : State} (h : s.faulted = true) : issue w s = .next s := if_pos h

theorem issue_illegal {w : Word} {s : State} {why : Illegal} (h : s.faulted = false) (hd : decodeWord w = .illegal why) :
    issue w s = .next (s.raiseFault .illegalCmd w) := by simp [issue, h, hd]

theorem issue_command {w : Word} {s : State} {i : Instr} (h : s.faulted = false) (hd : decodeWord w = .command i) :
    issue w s = exec i s := by simp [issue, h, hd]

theorem decode_eq_some {w : Word} {i : Instr} : decode w = some i ↔ decodeWord w = .command i := by
  unfold decode; split <;> simp_all

theorem decode_eq_none {w : Word} : decode w = none ↔ ∃ why, decodeWord w = .illegal why := by
  unfold decode; split <;> simp_all

/-! ### Host actions -/

theorem perform_writeMem (a : Addr) (v : Byte) (s : State) :
    perform (.writeMem a v) s = .next (s.memWrite a.toNat [v]) := rfl
theorem perform_readMem (a : Addr) (s : State) :
    perform (.readMem a) s = .next (s.reply (.memByte a (s.readByte a.toNat))) := rfl
theorem perform_readCtrl (off : Nat) (s : State) :
    perform (.readCtrl off) s = .next (s.reply (.ctrlWord off (s.readCtrl off))) := rfl
theorem perform_writeCtrl (off : Nat) (w : Word) (s : State) : perform (.writeCtrl off w) s = writeCtrl off w s := rfl
theorem perform_resetInput (s : State) : perform .resetInput s = .next s.resetUnit := rfl

theorem writeCtrl_cmd (w : Word) (s : State) : writeCtrl 0x00 w s = issue w s := rfl

theorem writeCtrl_ctrl (w : Word) (s : State) :
    writeCtrl 0x30 w s = if w.getLsbD 0 then .next s.resetUnit else .next s := rfl

theorem atOffset_eq_cmd {off : Nat} (h : CtrlReg.atOffset off = some .cmd) : off = 0x00 := by
  unfold CtrlReg.atOffset at h; split at h <;> simp_all

theorem atOffset_eq_ctrl {off : Nat} (h : CtrlReg.atOffset off = some .ctrl) : off = 0x30 := by
  unfold CtrlReg.atOffset at h; split at h <;> simp_all

/-- A write anywhere but at CMD and CTRL changes nothing. -/
theorem writeCtrl_other {off : Nat} (h0 : off ≠ 0x00) (h1 : off ≠ 0x30) (w : Word) (s : State) :
    writeCtrl off w s = .next s := by
  unfold writeCtrl
  split
  · exact absurd (atOffset_eq_cmd ‹_›) h0
  · exact absurd (atOffset_eq_ctrl ‹_›) h1
  · rfl

/-- Everything a write to the control space can answer. -/
theorem writeCtrl_next {off : Nat} {w : Word} {s t : State} (h : writeCtrl off w s = .next t) :
    (off = 0x00 ∧ issue w s = .next t) ∨ (off = 0x30 ∧ w.getLsbD 0 = true ∧ t = s.resetUnit) ∨ t = s := by
  by_cases h0 : off = 0x00
  · subst h0; exact .inl ⟨rfl, h⟩
  by_cases h1 : off = 0x30
  · subst h1
    rw [writeCtrl_ctrl] at h
    split at h
    · cases h; exact .inr (.inl ⟨rfl, ‹_›, rfl⟩)
    · cases h; exact .inr (.inr rfl)
  · rw [writeCtrl_other h0 h1] at h; cases h; exact .inr (.inr rfl)

/-- Everything a CMD write can answer: dropped, faulted, or what the command answers. -/
theorem issue_next {w : Word} {s t : State} (h : issue w s = .next t) :
    (s.faulted = true ∧ t = s) ∨
      (s.faulted = false ∧ decode w = none ∧ t = s.raiseFault .illegalCmd w) ∨
      (s.faulted = false ∧ ∃ i, decode w = some i ∧ exec i s = .next t) := by
  cases hf : s.faulted with
  | true => rw [issue_faulted hf] at h; cases h; exact .inl ⟨rfl, rfl⟩
  | false =>
    cases hd : decodeWord w with
    | illegal why => rw [issue_illegal hf hd] at h; cases h; exact .inr (.inl ⟨rfl, decode_eq_none.2 ⟨why, hd⟩, rfl⟩)
    | command i => rw [issue_command hf hd] at h; exact .inr (.inr ⟨rfl, i, decode_eq_some.2 hd, h⟩)

theorem step_idle {s : State} (h : s.host.pending = []) : step s = .next s := by
  simp [step, hostStep, h]

theorem step_action {s : State} {a : HostAction} {q : List HostAction} (h : s.host.pending = a :: q) :
    step s = perform a (s.withPending q) := by
  simp [step, hostStep, h]

/-- A run of one step more. -/
theorem run_succ {k : Nat} {s t : State} (h : step s = .next t) :
    Host.Core.run core (k + 1) s = Host.Core.run core k t := by
  simp only [Host.Core.run]
  rw [show core.step s = .next t from h]

/-- Putting a word before the step and taking it again changes nothing else. -/
@[simp] theorem withFetchWord_withPending (s : State) (nbits w : Nat) :
    (s.withFetchWord nbits w).withPending s.host.pending = s := rfl

end Sys2Proof.Machine
end

