-- ==== Sys2Proof/Laws/PerInstr.lean ====
section
/-! SUPPORT. Per instruction: every command's word matches its row of the opcode table under its format's mask
(30_encoding.md R76, R78). -/

namespace Sys2Proof.Laws

open Sys2Proof

/-- A number agrees with a match value under a mask when, at each bit the mask selects, the two have the same bit, and
the value is 0 elsewhere. -/
theorem ofNat_and_eq {n v : Nat} {m : Word}
    (h : ∀ k < 32, (decide (n / 2 ^ k % 2 = 1) && m.getLsbD k) = decide (v / 2 ^ k % 2 = 1)) :
    BitVec.ofNat 32 n &&& m = BitVec.ofNat 32 v := by
  apply BitVec.eq_of_getLsbD_eq
  intro k hk
  rw [BitVec.getLsbD_and, BitVec.getLsbD_ofNat, BitVec.getLsbD_ofNat, Nat.testBit_eq_decide_div_mod_eq,
    Nat.testBit_eq_decide_div_mod_eq]
  simpa [hk] using h k hk

/-! ### One lemma per format -/

theorem packRegs_r3 (op : Fin 256) (a b c : Fin 16) :
    packRegs op a b c 0 &&& CmdFormat.mask .r3 = matchValue op := by
  apply ofNat_and_eq
  intro k hk
  have := op.isLt; have := a.isLt; have := b.isLt; have := c.isLt
  simp only [CmdFormat.mask]
  interval_cases k <;> simp <;> omega

theorem packRegs_r2 (op : Fin 256) (a b : Fin 16) :
    packRegs op a b 0 0 &&& CmdFormat.mask .r2 = matchValue op := by
  apply ofNat_and_eq
  intro k hk
  have := op.isLt; have := a.isLt; have := b.isLt
  simp only [CmdFormat.mask]
  interval_cases k <;> simp <;> omega

theorem packRegs_r1 (op : Fin 256) (a : Fin 16) :
    packRegs op a 0 0 0 &&& CmdFormat.mask .r1 = matchValue op := by
  apply ofNat_and_eq
  intro k hk
  have := op.isLt; have := a.isLt
  simp only [CmdFormat.mask]
  interval_cases k <;> simp <;> omega

theorem packRegs_g (op : Fin 256) (a b : Fin 16) (d : BitVec 8) :
    packRegs op a b 0 d.toNat &&& CmdFormat.mask .g = matchValue op := by
  apply ofNat_and_eq
  intro k hk
  have := op.isLt; have := a.isLt; have := b.isLt; have := d.isLt
  simp only [CmdFormat.mask]
  interval_cases k <;> simp <;> omega

theorem packAddr_m (op : Fin 256) (a : Fin 16) (addr : Addr) :
    packAddr op a addr &&& CmdFormat.mask .m = matchValue op := by
  apply ofNat_and_eq
  intro k hk
  have := op.isLt; have := a.isLt; have := addr.isLt
  simp only [CmdFormat.mask]
  interval_cases k <;> simp <;> omega

theorem packAddr_a (op : Fin 256) (addr : Addr) :
    packAddr op 0 addr &&& CmdFormat.mask .a = matchValue op := by
  apply ofNat_and_eq
  intro k hk
  have := op.isLt; have := addr.isLt
  simp only [CmdFormat.mask]
  interval_cases k <;> simp <;> omega

theorem packLen_l (op : Fin 256) (len : BitVec 8) (addr : Addr) :
    packLen op len addr &&& CmdFormat.mask .l = matchValue op := by
  apply ofNat_and_eq
  intro k hk
  have := op.isLt; have := len.isLt; have := addr.isLt
  simp only [CmdFormat.mask]
  interval_cases k <;> simp <;> omega

theorem packIdx_i (op : Fin 256) (a : Fin 16) (idx : Fin 256) (imm : BitVec 12) :
    packIdx op a idx imm &&& CmdFormat.mask .i = matchValue op := by
  apply ofNat_and_eq
  intro k hk
  have := op.isLt; have := a.isLt; have := idx.isLt; have := imm.isLt
  simp only [CmdFormat.mask]
  interval_cases k <;> simp <;> omega

theorem packIdx_x (op : Fin 256) (a : Fin 16) (idx : Fin 256) :
    packIdx op a idx 0 &&& CmdFormat.mask .x = matchValue op := by
  apply ofNat_and_eq
  intro k hk
  have := op.isLt; have := a.isLt; have := idx.isLt
  simp only [CmdFormat.mask]
  interval_cases k <;> simp <;> omega

end Sys2Proof.Laws

namespace Sys2Proof.Laws.RowMatch

open Sys2Proof

/-- The command's word, under its format's mask, is its opcode's match value; and its row is in the table. -/
def Statement (i : Instr) : Prop :=
  encode i &&& i.row.2.mask = matchValue i.row.1 ∧ i.row ∈ opcodeTable

theorem nop : Statement .nop := by unfold Statement; decide
theorem clrerr : Statement .clrerr := by unfold Statement; decide
theorem radd (rd : RingReg) (rs1 : RingReg) (rs2 : RingReg) : Statement (.radd rd rs1 rs2) :=
  ⟨packRegs_r3 0x10 rd rs1 rs2, by simp [Instr.row, opcodeTable]⟩
theorem rsub (rd : RingReg) (rs1 : RingReg) (rs2 : RingReg) : Statement (.rsub rd rs1 rs2) :=
  ⟨packRegs_r3 0x11 rd rs1 rs2, by simp [Instr.row, opcodeTable]⟩
theorem rmul (rd : RingReg) (rs1 : RingReg) (rs2 : RingReg) : Statement (.rmul rd rs1 rs2) :=
  ⟨packRegs_r3 0x12 rd rs1 rs2, by simp [Instr.row, opcodeTable]⟩
theorem rred (rd : RingReg) : Statement (.rred rd) :=
  ⟨packRegs_r1 0x13 rd, by simp [Instr.row, opcodeTable]⟩
theorem req (rs1 : RingReg) (rs2 : RingReg) : Statement (.req rs1 rs2) :=
  ⟨packRegs_r2 0x14 rs1 rs2, by simp [Instr.row, opcodeTable]⟩
theorem rgen (rd : RingReg) (ss : SeedReg) (domain : Byte) : Statement (.rgen rd ss domain) :=
  ⟨packRegs_g 0x15 rd ss domain, by simp [Instr.row, opcodeTable]⟩
theorem ldr (rd : RingReg) (addr : Addr) : Statement (.ldr rd addr) :=
  ⟨packAddr_m 0x20 rd addr, by simp [Instr.row, opcodeTable]⟩
theorem str (rs : RingReg) (addr : Addr) : Statement (.str rs addr) :=
  ⟨packAddr_m 0x21 rs addr, by simp [Instr.row, opcodeTable]⟩
theorem lds (sd : SeedReg) (addr : Addr) : Statement (.lds sd addr) :=
  ⟨packAddr_m 0x22 sd addr, by simp [Instr.row, opcodeTable]⟩
theorem sts (ss : SeedReg) (addr : Addr) : Statement (.sts ss addr) :=
  ⟨packAddr_m 0x23 ss addr, by simp [Instr.row, opcodeTable]⟩
theorem rzero (rd : RingReg) : Statement (.rzero rd) :=
  ⟨packRegs_r1 0x24 rd, by simp [Instr.row, opcodeTable]⟩
theorem rsetl (rd : RingReg) (idx : Fin 256) (imm : BitVec 12) : Statement (.rsetl rd idx imm) :=
  ⟨packIdx_i 0x25 rd idx imm, by simp [Instr.row, opcodeTable]⟩
theorem rgetl (rs : RingReg) (idx : Fin 256) : Statement (.rgetl rs idx) :=
  ⟨packIdx_x 0x26 rs idx, by simp [Instr.row, opcodeTable]⟩
theorem compress (ra : RingReg) (rb : RingReg) (ss : SeedReg) : Statement (.compress ra rb ss) :=
  ⟨packRegs_r3 0x30 ra rb ss, by simp [Instr.row, opcodeTable]⟩
theorem decompress (rda : RingReg) (rdb : RingReg) : Statement (.decompress rda rdb) :=
  ⟨packRegs_r2 0x31 rda rdb, by simp [Instr.row, opcodeTable]⟩
theorem ksize : Statement .ksize := by unfold Statement; decide
theorem sksize : Statement .sksize := by unfold Statement; decide
theorem sklds (addr : Addr) : Statement (.sklds addr) :=
  ⟨packAddr_a 0x38 addr, by simp [Instr.row, opcodeTable]⟩
theorem sksts (addr : Addr) : Statement (.sksts addr) :=
  ⟨packAddr_a 0x39 addr, by simp [Instr.row, opcodeTable]⟩
theorem sklda (addr : Addr) (len : BitVec 8) : Statement (.sklda addr len) :=
  ⟨packLen_l 0x3a len addr, by simp [Instr.row, opcodeTable]⟩
theorem sksta (addr : Addr) : Statement (.sksta addr) :=
  ⟨packAddr_a 0x3b addr, by simp [Instr.row, opcodeTable]⟩
theorem skldc (addr : Addr) : Statement (.skldc addr) :=
  ⟨packAddr_a 0x3c addr, by simp [Instr.row, opcodeTable]⟩
theorem skstc (addr : Addr) : Statement (.skstc addr) :=
  ⟨packAddr_a 0x3d addr, by simp [Instr.row, opcodeTable]⟩
theorem skldp (addr : Addr) (len : BitVec 8) : Statement (.skldp addr len) :=
  ⟨packLen_l 0x3e len addr, by simp [Instr.row, opcodeTable]⟩
theorem skstp (addr : Addr) : Statement (.skstp addr) :=
  ⟨packAddr_a 0x3f addr, by simp [Instr.row, opcodeTable]⟩

end Sys2Proof.Laws.RowMatch
end

