-- ==== Sys2Proof/Laws/Ring.lean ====
section
/-! SUPPORT. The lanes of every ring and codec operation, and the byte form of lanes: one spec lemma per function. -/

namespace Sys2Proof.Machine

open Sys2Proof

/-- The exact sum is Mathlib's. -/
theorem sumTo_eq_sum (n : Nat) (f : Nat → Nat) : sumTo n f = ∑ j ∈ Finset.range n, f j := by
  induction n with
  | zero => rfl
  | succ n ih => rw [sumTo, ih, Finset.sum_range_succ]

/-! ### Residues -/

theorem residue_lt (v : Int) : (v % (Config.Q : Int)).toNat < 3329 := by
  have h1 := Int.emod_nonneg v (show (Config.Q : Int) ≠ 0 by decide)
  have h2 := Int.emod_lt_of_pos v (show (0 : Int) < Config.Q by decide)
  simp only [Config.Q] at *; omega

/-- The residue as a number. -/
@[simp] theorem toNat_laneOfResidue (v : Int) : (laneOfResidue v).toNat = (v % (Config.Q : Int)).toNat := by
  have := residue_lt v
  simp only [laneOfResidue, BitVec.toNat_ofNat]; omega

/-- The residue as an integer: the Euclidean one (00_scope.md R12). -/
theorem int_laneOfResidue (v : Int) : ((laneOfResidue v).toNat : Int) = v % 3329 := by
  rw [toNat_laneOfResidue]
  exact Int.toNat_of_nonneg (Int.emod_nonneg v (by decide))

theorem laneOfResidue_lt (v : Int) : (laneOfResidue v).toNat < 3329 := by
  rw [toNat_laneOfResidue]; exact residue_lt v

/-! ### Lanes of the ring operations -/

theorem nth_ringAdd (x y : RingElem) {i : Nat} (h : i < 256) :
    (ringAdd x y).nth i = laneOfResidue ((coeff x i : Int) + coeff y i) := Vec.nth_tab _ h

theorem nth_ringSub (x y : RingElem) {i : Nat} (h : i < 256) :
    (ringSub x y).nth i = laneOfResidue ((coeff x i : Int) - coeff y i) := Vec.nth_tab _ h

theorem nth_ringMul (x y : RingElem) {i : Nat} (h : i < 256) :
    (ringMul x y).nth i = laneOfResidue ((conv x y i : Int) - conv x y (i + 256)) := Vec.nth_tab _ h

theorem nth_ringReduce (x : RingElem) {i : Nat} (h : i < 256) :
    (ringReduce x).nth i = laneOfResidue (coeff x i) := Vec.nth_tab _ h

theorem nth_gen (seed : Seed) (d : Byte) {i : Nat} (h : i < 256) :
    (gen seed d).nth i = laneOfResidue (Config.GenWide seed d i) := Vec.nth_tab _ h

/-! ### Entries of the codec stages -/

theorem nth_decimate (b : RingElem) (old : Vec Lane 256) {i : Nat} (h : i < 256) :
    (decimate b old).nth i = if i < 128 then b.nth (2 * i) else old.nth i := Vec.nth_tab _ h

theorem nth_parityOf (b : RingElem) (old : Vec Lane 256) {i : Nat} (h : i < 256) :
    (parityOf b old).nth i =
      if i < 128 then laneOfResidue ((coeff b (2 * i) : Int) + coeff b (2 * i + 1)) else old.nth i := Vec.nth_tab _ h

theorem nth_reconstruct_even (p q : Vec Lane 256) {i : Nat} (h : i < 128) :
    (reconstruct p q).nth (2 * i) = p.nth i := by
  rw [reconstruct, Vec.nth_tab _ (show 2 * i < 256 by omega), if_pos (by omega)]
  congr 1; omega

theorem nth_reconstruct_odd (p q : Vec Lane 256) {i : Nat} (h : i < 128) :
    (reconstruct p q).nth (2 * i + 1) = laneOfResidue (((q.nth i).toNat : Int) + 3329 - (p.nth i).toNat) := by
  rw [reconstruct, Vec.nth_tab _ (show 2 * i + 1 < 256 by omega), if_neg (by omega)]
  have : (2 * i + 1) / 2 = i := by omega
  rw [this]; rfl

theorem nth_chkOf (b : RingElem) {j : Nat} (h : j < 8) : (chkOf b).nth j = Config.checksumByte (ser b) j :=
  Vec.nth_tab _ h

/-! ### Lanes as bytes -/

@[simp] theorem toNat_lowByte (x : Lane) : (lowByte x).toNat = x.toNat % 256 := by
  simp [lowByte]

@[simp] theorem toNat_highByte (x : Lane) : (highByte x).toNat = x.toNat / 256 := by
  have := x.isLt
  simp only [highByte, BitVec.toNat_ofNat]; omega

@[simp] theorem toNat_laneOf (b0 b1 : Byte) : (laneOf b0 b1).toNat = b0.toNat + 256 * b1.toNat := by
  have := b0.isLt; have := b1.isLt
  simp only [laneOf, BitVec.toNat_ofNat]; omega

/-- The two bytes of a lane give it back. -/
@[simp] theorem laneOf_bytes (x : Lane) : laneOf (lowByte x) (highByte x) = x := by
  apply BitVec.eq_of_toNat_eq; simp; omega

theorem laneBytes_low (xs : List Lane) (i : Nat) : (laneBytes xs)[2 * i]? = xs[i]?.map lowByte := by
  induction xs generalizing i with
  | nil => simp [laneBytes]
  | cons x xs ih =>
    cases i with
    | zero => simp [laneBytes]
    | succ i => simpa [laneBytes, Nat.mul_add] using ih i

theorem laneBytes_high (xs : List Lane) (i : Nat) : (laneBytes xs)[2 * i + 1]? = xs[i]?.map highByte := by
  induction xs generalizing i with
  | nil => simp [laneBytes]
  | cons x xs ih =>
    cases i with
    | zero => simp [laneBytes]
    | succ i => simpa [laneBytes, Nat.mul_add] using ih i

theorem nth_ser_low (x : RingElem) {i : Nat} (h : i < 256) : (ser x).nth (2 * i) = lowByte (x.nth i) := by
  have hl : i < x.toList.length := by rw [x.length_eq]; exact h
  simp [ser, Vec.nth, List.getD, laneBytes_low, hl]

theorem nth_ser_high (x : RingElem) {i : Nat} (h : i < 256) : (ser x).nth (2 * i + 1) = highByte (x.nth i) := by
  have hl : i < x.toList.length := by rw [x.length_eq]; exact h
  simp [ser, Vec.nth, List.getD, laneBytes_high, hl]

theorem nth_deser (y : Vec Byte 512) {i : Nat} (h : i < 256) :
    (deser y).nth i = laneOf (y.nth (2 * i)) (y.nth (2 * i + 1)) := Vec.nth_tab _ h

/-- Deser undoes Ser (00_scope.md R15). -/
@[simp] theorem deser_ser (x : RingElem) : deser (ser x) = x := by
  apply Vec.ext_nth
  intro i h
  rw [nth_deser _ h, nth_ser_low _ h, nth_ser_high _ h, laneOf_bytes]

theorem nth_loadEntries (s : State) (a len : Nat) (old : Vec Lane 256) {j : Nat} (h : j < 256) :
    (loadEntries s a len old).nth j =
      if j < len then laneOf (s.readByte (a + 2 * j)) (s.readByte (a + 2 * j + 1)) else old.nth j := Vec.nth_tab _ h

/-- A sequence of `len` entries is stored as `2 * len` bytes. -/
theorem length_entryBytes {len : Nat} (h : len ≤ 256) (v : Vec Lane 256) : (entryBytes len v).length = 2 * len := by
  rw [entryBytes, length_laneBytes, List.length_take, v.length_eq]; omega

@[simp] theorem toNat_laneOfImm (imm : BitVec 12) : (laneOfImm imm).toNat = imm.toNat := by
  have := imm.isLt
  simp only [laneOfImm, BitVec.toNat_ofNat]; omega

@[simp] theorem toNat_wordOfLane (x : Lane) : (wordOfLane x).toNat = x.toNat := by
  have := x.isLt
  simp only [wordOfLane, BitVec.toNat_ofNat]; omega

end Sys2Proof.Machine
end

