-- ==== Sys2Proof/Tests/Slice0.lean ====
section
/-! SUPPORT. Tests whose expected results are the spec's own (95_test_vectors.md, 30_encoding.md section 8, the examples
and corner cases of the command rules), and one witness for each statement that has hypotheses. -/

namespace Sys2Proof.Tests

set_option Elab.async false

open Sys2Proof Sys2Proof.Machine Sys2Proof.Claims

/-! ### Small states -/

/-- An element: the lanes listed, every other lane 0. -/
def elem (ls : List (Nat × Nat)) : RingElem := .tab Config.N fun i => BitVec.ofNat 16 ((ls.lookup i).getD 0)

/-- A sketch: the entries listed, every other entry 0; seed and checksum 0. -/
def sketch (alen : BitVec 8) (anchor : List (Nat × Nat)) (plen : BitVec 8) (parity : List (Nat × Nat)) : Sketch where
  seed := .tab 32 fun _ => 0
  alen := alen
  anchor := elem anchor
  chk := .tab 8 fun _ => 0
  plen := plen
  parity := elem parity

/-- A unit: the ring registers listed, the others 0; byte j of every seed register is j; an empty sketch. -/
def unit (rs : List (Nat × RingElem)) : State :=
  { State.reset with
    ring := .tab 16 fun r => (rs.lookup r).getD (elem [])
    seeds := .tab 16 fun _ => .tab 32 fun j => BitVec.ofNat 8 j
    sk := sketch 0 [] 0 [] }

/-- A unit that holds a sketch. -/
def holding (k : Sketch) : State := (unit []).setSketch k

/-- A unit that holds bytes in operand memory from `a` on. -/
def stored (a : Nat) (bs : List Byte) : State := (unit []).memWrite a bs

/-- What `f` sees after a command. -/
def after {α : Type} (i : Instr) (s : State) (f : State → α) : Option α :=
  match exec i s with
  | .next t => some (f t)
  | .fault _ => none
  | .refused _ => none

/-- What `f` sees after a step. -/
def afterStep {α : Type} (s : State) (f : State → α) : Option α :=
  match step s with
  | .next t => some (f t)
  | .fault _ => none
  | .refused _ => none

/-- Lanes as numbers. -/
def lanes (r : RingReg) (is : List Nat) (s : State) : List Nat := is.map (lane s r)

/-- Bytes of operand memory as numbers. -/
def bytes (as : List Nat) (s : State) : List Nat := as.map (byteAt s)

/-- STATUS, FCAUSE, FCMD, CMDCNT. -/
def fault (s : State) : Word × Word × Word × Word := (s.status, s.fcause, s.fcmd, s.cmdcnt)

/-- RESULT, ESTICKY, CMDCNT. -/
def retirement (s : State) : Word × Word × Word := (s.result, s.esticky, s.cmdcnt)

/-! ### WellFormed -/

/-- The one ill-formed shape is refused (30_encoding.md R72). -/
theorem test_wellFormed_refuses_equal_destinations :
    (Instr.decompress 1 1).wellFormed = false ∧ (Instr.decompress 0 1).wellFormed = true := by decide

/-! ### Decoding (V-ENC, V-ILL, 30_encoding.md section 8) -/

theorem test_decode_system : decode 0x00000000 = some .nop ∧ decode 0x01000000 = some .clrerr := by decide

theorem test_decode_ring :
    decode 0x10312000 = some (.radd 3 1 2) ∧ decode 0x11F0F000 = some (.rsub 15 0 15) ∧
    decode 0x12223000 = some (.rmul 2 2 3) ∧ decode 0x13700000 = some (.rred 7) ∧
    decode 0x14450000 = some (.req 4 5) ∧ decode 0x159A00FF = some (.rgen 9 10 255) := by decide

theorem test_decode_movement :
    decode 0x20100200 = some (.ldr 1 0x0200) ∧ decode 0x21F0FE00 = some (.str 15 0xFE00) ∧
    decode 0x22000000 = some (.lds 0 0x0000) ∧ decode 0x23F0FFE0 = some (.sts 15 0xFFE0) ∧
    decode 0x24500000 = some (.rzero 5) ∧ decode 0x252FFD00 = some (.rsetl 2 255 3328) ∧
    decode 0x25000FFF = some (.rsetl 0 0 4095) ∧ decode 0x262FF000 = some (.rgetl 2 255) := by decide

theorem test_decode_codec :
    decode 0x30030000 = some (.compress 0 3 0) ∧ decode 0x3012F000 = some (.compress 1 2 15) ∧
    decode 0x31450000 = some (.decompress 4 5) ∧ decode 0x31F00000 = some (.decompress 15 0) ∧
    decode 0x32000000 = some .ksize ∧ decode 0x33000000 = some .sksize := by decide

theorem test_decode_fields :
    decode 0x38002000 = some (.sklds 0x2000) ∧ decode 0x3900FFE0 = some (.sksts 0xFFE0) ∧
    decode 0x3A801000 = some (.sklda 0x1000 128) ∧ decode 0x3A00FFFF = some (.sklda 0xFFFF 0) ∧
    decode 0x3B001000 = some (.sksta 0x1000) ∧ decode 0x3C001100 = some (.skldc 0x1100) ∧
    decode 0x3D00FFF8 = some (.skstc 0xFFF8) ∧ decode 0x3E811200 = some (.skldp 0x1200 129) ∧
    decode 0x3EFF1128 = some (.skldp 0x1128 255) ∧ decode 0x3F001200 = some (.skstp 0x1200) := by decide

theorem test_decode_unassigned :
    decodeWord 0xFFFFFFFF = .illegal .unassignedOpcode ∧
    decodeWord 0x02000000 = .illegal .unassignedOpcode ∧
    decodeWord 0x16000000 = .illegal .unassignedOpcode ∧
    decodeWord 0x27000000 = .illegal .unassignedOpcode ∧
    decodeWord 0x34000000 = .illegal .unassignedOpcode ∧
    decodeWord 0x40000000 = .illegal .unassignedOpcode := by decide

theorem test_decode_must_be_zero :
    decodeWord 0x00000001 = .illegal .mustBeZero ∧
    decodeWord 0x10312001 = .illegal .mustBeZero ∧
    decodeWord 0x13710000 = .illegal .mustBeZero ∧
    decodeWord 0x14451000 = .illegal .mustBeZero ∧
    decodeWord 0x15000100 = .illegal .mustBeZero ∧
    decodeWord 0x20110200 = .illegal .mustBeZero ∧
    decodeWord 0x3B011000 = .illegal .mustBeZero ∧
    decodeWord 0x262FF001 = .illegal .mustBeZero ∧
    decodeWord 0x2011FFFF = .illegal .mustBeZero := by decide

theorem test_decode_equal_destinations :
    decodeWord 0x31110000 = .illegal .equalDestinations ∧ decodeWord 0x31000000 = .illegal .equalDestinations := by
  decide

/-- The encoder gives the words of V-ENC, one per format. -/
theorem test_encode :
    encode .clrerr = 0x01000000 ∧ encode (.rsub 15 0 15) = 0x11F0F000 ∧ encode (.req 4 5) = 0x14450000 ∧
    encode (.rred 7) = 0x13700000 ∧ encode (.rgen 9 10 255) = 0x159A00FF ∧ encode (.str 15 0xFE00) = 0x21F0FE00 ∧
    encode (.skstc 0xFFF8) = 0x3D00FFF8 ∧ encode (.skldp 0x1128 255) = 0x3EFF1128 ∧
    encode (.rsetl 2 255 3328) = 0x252FFD00 ∧ encode (.rgetl 2 255) = 0x262FF000 := by decide

/-- A table word is the whole word. -/
theorem test_decodeTableWord : decodeTableWord 32 0x10312000 = some (.radd 3 1 2) := by decide

/-! ### The assembler (30_encoding.md R81, R86; program P4) -/

theorem test_assemble_P4 :
    (assemble ["RZERO R0".toList, "STR R0, 0xFE00 ; to the last byte".toList, "STR R0, 0xFE01".toList,
        "RSETL R0, 0, 1".toList, "NOP".toList, "".toList]).map (·.map encode) =
      some [0x24000000, 0x2100FE00, 0x2100FE01, 0x25000001, 0x00000000] := by decide +kernel

theorem test_assemble_refuses :
    assembleLine "DECOMPRESS R1, R1".toList = none ∧ assembleLine "RRED R16".toList = none ∧
    assembleLine "RSETL R0, 0, 4096".toList = none ∧ assembleLine "SKLDA 0x10000, 1".toList = none ∧
    assembleLine "radd R1, R2, R3".toList = none := by decide +kernel

theorem test_assemble_rone : assembleLine "RONE R5".toList = some [.rzero 5, .rsetl 5 0 1] := by decide +kernel

/-! ### System commands -/

/-- V-SYS-1. -/
theorem test_nop_keeps_sticky :
    after .nop { unit [] with result := 2, esticky := 4, cmdcnt := 9 } retirement = some (0, 4, 10) := by
  decide +kernel

/-- V-SYS-4. -/
theorem test_nop_count_wraps : after .nop { unit [] with cmdcnt := 0xFFFFFFFF } retirement = some (0, 0, 0) := by
  decide +kernel

/-- V-SYS-2. -/
theorem test_clrerr : after .clrerr { unit [] with result := 2, esticky := 6 } retirement = some (0, 0, 1) := by
  decide +kernel

/-! ### Ring arithmetic -/

/-- V-ADD-1. -/
theorem test_radd_wraps_at_Q :
    after (.radd 3 1 2) (unit [(1, elem [(0, 3328), (1, 1000), (2, 2000)]), (2, elem [(0, 1), (1, 2000), (2, 2000)])])
      (lanes 3 [0, 1, 2, 3]) = some [0, 3000, 671, 0] := by decide +kernel

/-- V-ADD-4: un-normalised inputs, no wrap at 2^16. -/
theorem test_radd_exact :
    after (.radd 3 1 2) (unit [(1, elem [(0, 65535), (1, 3329)]), (2, elem [(0, 65535)])]) (lanes 3 [0, 1]) =
      some [1239, 0] := by decide +kernel

/-- V-SUB-1. -/
theorem test_rsub_borrows :
    after (.rsub 3 1 2) (unit [(1, elem [(0, 0), (1, 5), (2, 100)]), (2, elem [(0, 1), (1, 5), (2, 3328)])])
      (lanes 3 [0, 1, 2]) = some [3328, 0, 101] := by decide +kernel

/-- V-SUB-3. -/
theorem test_rsub_euclidean :
    after (.rsub 1 1 2) (unit [(1, elem [(0, 0), (1, 3329)]), (2, elem [(0, 65535), (1, 1)])]) (lanes 1 [0, 1]) =
      some [1045, 3328] := by decide +kernel

/-- V-MUL-2: the term that wraps changes sign. -/
theorem test_rmul_negacyclic :
    after (.rmul 3 1 2) (unit [(1, elem [(0, 1), (1, 2), (2, 3), (3, 4)]), (2, elem [(0, 5), (255, 6)])])
      (lanes 3 [1, 255]) = some [3321, 6] := by decide +kernel

/-- V-MUL-6: un-normalised inputs. -/
theorem test_rmul_exact :
    after (.rmul 3 1 2) (unit [(1, elem [(255, 65535)]), (2, elem [(255, 65535)])]) (lanes 3 [254]) =
      some [3216] := by decide +kernel

/-- V-RED-1. -/
theorem test_rred :
    after (.rred 7) (unit [(7, elem [(0, 3328), (1, 3329), (2, 6658), (3, 65535), (4, 4095)])])
      (lanes 7 [0, 1, 2, 3, 4]) = some [3328, 0, 0, 2284, 766] := by decide +kernel

/-- V-EQ-1. -/
theorem test_req_equal : after (.req 1 2) (unit [(1, elem [(7, 5)]), (2, elem [(7, 5)])]) State.rval = some 1 := by
  decide +kernel

/-- V-EQ-2: the stored lanes differ, the residues do not. -/
theorem test_req_raw : after (.req 1 2) (unit [(1, elem [(0, 3329)])]) State.rval = some 0 := by decide +kernel

/-- V-GEN-1, V-GEN-2: the residues of the seed's own wide values for the tag, whatever GenWide is. -/
theorem test_rgen :
    after (.rgen 4 1 7) (unit []) (fun t => (t.ringReg 4).nth 9) =
      some (laneOfResidue (Config.GenWide ((unit []).seedReg 3) 7 9)) := by
  simp only [after, exec, execRgen, State.ringReg_retire, State.ringReg_setRing_same]
  rw [nth_gen _ _ (by decide)]
  rfl

/-! ### Data movement -/

/-- V-MOV-1 and V-MOV-2. -/
theorem test_ldr_little_endian :
    after (.ldr 1 0x0200) (stored 0x0200 [0x00, 0x0D, 0x05, 0x00, 0xFF, 0xFF]) (lanes 1 [0, 1, 2]) =
      some [3328, 5, 65535] := by decide +kernel

/-- V-MOV-5. -/
theorem test_ldr_out_of_range : after (.ldr 0 0xFE01) (unit []) fault = some (1, 2, 0x2000FE01, 0) := by decide +kernel

/-- V-MOV-3. -/
theorem test_str_little_endian :
    after (.str 1 0x0400) (unit [(1, elem [(0, 3328), (1, 5), (255, 258)])])
      (bytes [0x0400, 0x0401, 0x0402, 0x0403, 0x05FE, 0x05FF]) = some [0x00, 0x0D, 0x05, 0x00, 2, 1] := by
  decide +kernel

/-- Program P4, steps 1 and 2: the last address in range and the first out of range. -/
theorem test_str_limits :
    after (.str 0 0xFE00) (unit []) fault = some (0, 0, 0, 1) ∧
    after (.str 0 0xFE01) (unit []) fault = some (1, 2, 0x2100FE01, 0) := by decide +kernel

/-- V-MOV-6. -/
theorem test_lds :
    after (.lds 3 0x0100) ((stored 0x0100 [9, 1, 2]).memWrite 0x011F [31])
      (fun t => [(t.seedReg 3).nth 0, (t.seedReg 3).nth 1, (t.seedReg 3).nth 31, (t.seedReg 4).nth 0]) =
      some [9, 1, 31, 0] := by decide +kernel

/-- V-MOV-6. -/
theorem test_sts : after (.sts 3 0xFFE0) (unit []) (bytes [0xFFE0, 0xFFE1, 0xFFFF]) = some [0, 1, 31] := by
  decide +kernel

/-- V-MOV-7. -/
theorem test_rzero : after (.rzero 2) (unit [(2, elem [(0, 7), (255, 7)])]) (lanes 2 [0, 255]) = some [0, 0] := by
  decide +kernel

/-- V-MOV-8, and 41_data_movement.md R126: the immediate is not reduced. -/
theorem test_rsetl_keeps_other_lanes :
    after (.rsetl 2 5 4095) (unit [(2, elem [(4, 9), (5, 8), (6, 7)])]) (lanes 2 [4, 5, 6]) = some [9, 4095, 7] := by
  decide +kernel

/-- V-MOV-7. -/
theorem test_rgetl : after (.rgetl 3 7) (unit [(3, elem [(6, 1), (7, 3329)])]) State.rval = some 3329 := by
  decide +kernel

/-! ### Sketch codec -/

/-- V-CMP-2, and 42_sketch_codec.md R141 corner case 3: entries from 128 on keep their values. -/
theorem test_compress :
    after (.compress 0 1 2) { unit [(1, elem [(0, 3000), (1, 1000), (2, 7)])] with sk := sketch 3 [(128, 77)] 4 [] }
      (fun t => (t.sk.alen, t.sk.plen, t.sk.anchor.nth 0, t.sk.anchor.nth 1, t.sk.anchor.nth 128, t.sk.parity.nth 0,
        t.sk.parity.nth 1, t.sk.seed.nth 31)) = some (128, 128, 3000, 7, 77, 671, 7, 31) := by decide +kernel

/-- V-CMP-3: un-normalised lanes. -/
theorem test_compress_raw :
    after (.compress 0 1 2) (unit [(1, elem [(0, 3334), (1, 65535)])])
      (fun t => (t.sk.anchor.nth 0, t.sk.parity.nth 0)) = some (3334, 2289) := by decide +kernel

/-- V-DEC-4: lengths 0, and 128 with 255. -/
theorem test_decompress_invalid_input :
    after (.decompress 2 3) (unit []) retirement = some (1, 2, 1) ∧
    after (.decompress 2 3) (holding (sketch 128 [] 255 [])) retirement = some (1, 2, 1) := by decide +kernel

/-- 42_sketch_codec.md R140, V-DEC-8: what is reconstructed, anchors below and at or above Q. -/
theorem test_reconstruct :
    [0, 1, 6, 7].map (coeff (reconstruct (elem [(0, 3000), (3, 65535)]) (elem [(0, 671), (3, 1115)]))) =
      [3000, 1000, 65535, 2160] := by decide +kernel

theorem test_ksize : after .ksize (unit []) State.rval = some 1024 := by decide +kernel

/-- V-SIZ-2. -/
theorem test_sksize :
    [(0, 0), (128, 128), (127, 128), (255, 255)].map
        (fun p : BitVec 8 × BitVec 8 => after .sksize (holding (sketch p.1 [] p.2 [])) State.rval) =
      [some 40, some 552, some 550, some 1060] := by decide +kernel

theorem test_sklds :
    after (.sklds 0x2000) ((stored 0x2000 [5, 6]).memWrite 0x201F [7])
      (fun t => [t.sk.seed.nth 0, t.sk.seed.nth 1, t.sk.seed.nth 31]) = some [5, 6, 7] := by decide +kernel

theorem test_sksts :
    after (.sksts 0xFFE0) (holding { sketch 0 [] 0 [] with seed := .tab 32 fun j => BitVec.ofNat 8 (j + 1) })
      (bytes [0xFFE0, 0xFFFF]) = some [1, 32] := by decide +kernel

/-- V-MOV-5: entries above the length keep their values. -/
theorem test_sklda :
    after (.sklda 0xFFFC 2) ((holding (sketch 9 [(2, 33)] 0 [])).memWrite 0xFFFC [0xB8, 0x0B, 0x02, 0x01])
      (fun t => (t.sk.alen, t.sk.anchor.nth 0, t.sk.anchor.nth 1, t.sk.anchor.nth 2)) =
      some (2, 3000, 258, 33) := by decide +kernel

/-- V-MOV-5: one byte too far faults, and a length of 0 never does. -/
theorem test_sklda_limits :
    after (.sklda 0xFFFF 1) (holding (sketch 9 [] 0 [])) (fun t => (fault t, t.sk.alen)) =
      some ((1, 2, 0x3A01FFFF, 0), 9) ∧
    after (.sklda 0xFFFF 0) (holding (sketch 9 [] 0 [])) (fun t => (fault t, t.sk.alen)) =
      some ((0, 0, 0, 1), 0) := by decide +kernel

/-- The example of 42_sketch_codec.md R153: exactly 2 * ALEN bytes. -/
theorem test_sksta :
    after (.sksta 0x1000) ((holding (sketch 2 [(0, 3000), (1, 5), (2, 9)] 0 [])).memWrite 0x1004 [0xEE])
      (bytes [0x1000, 0x1001, 0x1002, 0x1003, 0x1004]) = some [0xB8, 0x0B, 5, 0, 0xEE] := by decide +kernel

/-- V-MOV-5. -/
theorem test_sksta_limits :
    after (.sksta 0xFFFF) (unit []) fault = some (0, 0, 0, 1) ∧
    after (.sksta 0xFF01) (holding (sketch 128 [] 0 [])) fault = some (1, 2, 0x3B00FF01, 0) := by decide +kernel

/-- V-MOV-5. -/
theorem test_skldc :
    after (.skldc 0xFFF8) (stored 0xFFF8 [8, 7, 6, 5, 4, 3, 2, 1]) (fun t => [t.sk.chk.nth 0, t.sk.chk.nth 7]) =
      some [8, 1] ∧
    after (.skldc 0xFFF9) (unit []) fault = some (1, 2, 0x3C00FFF9, 0) := by decide +kernel

theorem test_skstc :
    after (.skstc 0x1100) (holding { sketch 0 [] 0 [] with chk := .tab 8 fun j => BitVec.ofNat 8 (j + 10) })
      (bytes [0x1100, 0x1107]) = some [10, 17] := by decide +kernel

/-- The example of 42_sketch_codec.md R156. -/
theorem test_skldp :
    after (.skldp 0x1200 129) (stored 0x1200 [0x9F, 0x02]) (fun t => (t.sk.plen, t.sk.parity.nth 0)) =
      some (129, 671) := by decide +kernel

/-- The example of 42_sketch_codec.md R157. -/
theorem test_skstp :
    after (.skstp 0x1200) (holding (sketch 0 [] 1 [(0, 671)])) (bytes [0x1200, 0x1201]) = some [0x9F, 0x02] := by
  decide +kernel

/-! ### Issuing, faults, the host -/

/-- The host about to write `w` at a control offset. -/
def about (s : State) (a : HostAction) : State := s.withPending [a]

/-- V-FLT-1: an illegal word. -/
theorem test_issue_illegal :
    afterStep (about { unit [] with cmdcnt := 5 } (.writeCtrl 0x00 0xFFFFFFFF)) fault =
      some (1, 1, 0xFFFFFFFF, 5) := by decide +kernel

/-- V-FLT-2: while faulted a command is dropped. -/
theorem test_issue_dropped :
    afterStep (about ((unit []).raiseFault .illegalCmd 0xFFFFFFFF) (.writeCtrl 0x00 0x2000FE01)) fault =
      some (1, 1, 0xFFFFFFFF, 0) := by decide +kernel

/-- V-FLT-1: reset by CTRL. -/
theorem test_reset_by_ctrl :
    afterStep (about { unit [] with status := 1, fcause := 2, fcmd := 7, cmdcnt := 5, rval := 3 } (.writeCtrl 0x30 1))
      (fun t => (fault t, retirement t, t.rval, t.sk.alen)) = some ((0, 0, 0, 0), (0, 0, 0), 0, 0) := by decide +kernel

/-- V-CTL-1: a write of 0 to CTRL, and a write to a read-only register. -/
theorem test_ignored_writes :
    afterStep (about { unit [] with cmdcnt := 5 } (.writeCtrl 0x30 0)) State.cmdcnt = some 5 ∧
    afterStep (about { unit [] with cmdcnt := 5 } (.writeCtrl 0x14 9)) State.cmdcnt = some 5 := by decide +kernel

/-- V-CTL-1: the constants, the write-only registers and an unassigned offset. -/
theorem test_control_reads :
    [0x28, 0x2C, 0x34, 0x00, 0x30, 0x38, 0x29].map (State.readCtrl (unit [])) = [256, 3329, 1, 0, 0, 0, 0] := by
  decide +kernel

/-- A word put before the step is run by it, and nothing of it is left. -/
theorem test_withFetchWord :
    afterStep (State.reset.withFetchWord 32 0x32000000) (fun t => (t.rval, t.cmdcnt, t.host.pending)) =
      some (1024, 1, []) := by decide +kernel

/-! ### Witnesses: states and operands that meet the hypotheses of each statement, each clause at its boundary -/

/-- The unit of the tests, faulted. -/
def stopped : State := (unit []).raiseFault .addrRange 0x2000FE01

/-- An element whose lanes are below Q, two of them the largest such. -/
def normal : RingElem := elem [(0, 3328), (1, 3328), (2, 7)]

theorem normal_normalised : Normalised normal := by
  intro i hi
  rw [normal, elem, Vec.nth_tab _ hi]
  simp only [List.lookup]
  split <;> [decide; (split <;> [decide; (split <;> decide)])]

/-- A sketch that DECOMPRESS accepts whatever the checksum is: its checksum is that of what it reconstructs. -/
def goodSketch : Sketch :=
  { sketch 128 [(0, 3000)] 128 [(0, 671)] with chk := chkOf (reconstruct (elem [(0, 3000)]) (elem [(0, 671)])) }

/-- The same with byte 7 of the checksum changed (V-DEC-10). -/
def badSketch : Sketch :=
  { goodSketch with chk := goodSketch.chk.set 7 (goodSketch.chk.nth 7 + 1) }

theorem witness_DecodeOfEncodeIsTheCommand : (Instr.decompress 15 0).wellFormed = true := by decide

theorem witness_EncodeOfDecodeIsTheWord : decode 0x3EFF1128 = some (.skldp 0x1128 255) := by decide

theorem witness_DecodeFollowsTheTable :
    Legal 0x31F00000 ∧ Legal 0x3AFFFFFF ∧ ¬ Legal 0x31110000 ∧ ¬ Legal 0x40000000 ∧ ¬ Legal 0x2011FFFF := by
  unfold Legal
  decide +kernel

theorem witness_StepIssuesTheCommandWord :
    (stopped.withPending [.writeCtrl 0x00 0]).faulted = true ∧
    ((unit []).withPending [.writeCtrl 0x00 0x40000000]).faulted = false ∧ decode 0x40000000 = none ∧
    ((unit []).withPending [.writeCtrl 0x00 0]).faulted = false ∧ decode 0x00000000 = some .nop := by decide +kernel

theorem witness_StepRunsTheSuppliedWord :
    (unit []).faulted = false ∧ decode (BitVec.ofNat 32 0x3E811200) = some (.skldp 0x1200 129) := by decide +kernel

theorem witness_RangeFaultExactlyWhenOutOfRange :
    moved (unit []) (.sklda 0xFF00 128) = some (0xFF00, 256) ∧ Fits 0xFF00 256 ∧
    moved (unit []) (.sklda 0xFF01 128) = some (0xFF01, 256) ∧ ¬ Fits 0xFF01 256 ∧
    moved (unit []) (.sksta 0xFFFF) = some (0xFFFF, 0) ∧ Fits 0xFFFF 0 := by
  unfold Fits
  decide +kernel

theorem witness_NoFaultWithoutATransfer :
    (Instr.decompress 1 2).wellFormed = true ∧ moved (unit []) (.decompress 1 2) = none := by decide +kernel

/-- While faulted: a CMD write, a CTRL reset, the reset input, and a byte written. -/
theorem witness_OnlyResetLeavesAFault :
    stopped.faulted = true ∧
    ∀ a ∈ [HostAction.writeCtrl 0x00 0, .writeCtrl 0x30 1, .resetInput, .writeMem 3 4],
      (stopped.withPending [a]).faulted = true ∧ ∃ t, step (stopped.withPending [a]) = .next t := by
  refine ⟨by decide +kernel, fun a ha => ⟨(State.faulted_withPending ..).trans (by decide +kernel), ?_⟩⟩
  simp only [List.mem_cons, List.not_mem_nil, or_false] at ha
  rcases ha with rfl | rfl | rfl | rfl <;> exact ⟨_, rfl⟩

theorem witness_CommandsAfterAFaultDoNothing :
    (stopped.withPending (issueAll [.nop, .ksize])).faulted = true ∧
    (stopped.withPending (issueAll [.nop, .ksize])).host.pending = issueAll [.nop, .ksize] := by decide +kernel

theorem witness_CmdcntCountsRetiredCommands :
    (∀ i ∈ [Instr.nop, .ksize], i.wellFormed = true) ∧
    ((unit []).withPending (issueAll [.nop, .ksize])).faulted = false ∧
    ∃ t, Host.Core.run core 2 ((unit []).withPending (issueAll [.nop, .ksize])) = .next t ∧ t.faulted = false :=
  ⟨by decide, by decide +kernel, _, rfl, by decide +kernel⟩

theorem witness_ResetClearsTheControlState : (0x80000001 : Word).getLsbD 0 = true := by decide

theorem witness_OtherControlWritesAreIgnored :
    ((unit []).withPending [.writeCtrl 0x14 9]).host.pending = [.writeCtrl 0x14 9] ∧ 0x14 ≠ 0x00 ∧ 0x14 ≠ 0x30 ∧
    ((unit []).withPending [.writeCtrl 0x30 2]).host.pending = [.writeCtrl 0x30 2] ∧
      (2 : Word).getLsbD 0 = false := by decide +kernel

theorem witness_ControlReadsFollowTheMap :
    ((unit []).withPending [.readCtrl 0x34]).host.pending = [.readCtrl 0x34] ∧
    ((unit []).withPending [.readCtrl 0x35]).host.pending = [.readCtrl 0x35] ∧
    (0x35 : Nat) ∉ [0x04, 0x08, 0x0C, 0x10, 0x14, 0x18, 0x1C, 0x20, 0x24, 0x28, 0x2C, 0x34] := by decide +kernel

theorem witness_HostReachesOperandMemory :
    ((unit []).withPending [.writeMem 0xFFFF 7]).host.pending = [.writeMem 0xFFFF 7] ∧
    (stopped.withPending [.readMem 0]).host.pending = [.readMem 0] := by decide +kernel

theorem unit_inv : State.Inv (unit []) := by
  constructor
  case omem_wf => exact Memory.wf_nil
  all_goals simp [unit, State.reset, State.atReset]

theorem witness_StepKeepsTheInvariant :
    State.Inv ((unit []).withPending (issueAll [.nop])) ∧
      ∃ t, step ((unit []).withPending (issueAll [.nop])) = .next t := by
  refine ⟨?_, _, rfl⟩
  obtain ⟨h1, h2, h3, h4, h5, h6, h7, h8, h9⟩ := unit_inv
  exact ⟨h1, h2, h3, h4, h5, h6, h7, h8, h9⟩

/-- A unit with a sticky bit set that runs CLRERR. -/
theorem witness_StickyBitsStaySet :
    ∃ t, step { (unit []).withPending (issueAll [.clrerr]) with esticky := 4 } = .next t ∧
      ({ (unit []).withPending (issueAll [.clrerr]) with esticky := 4 } : State).esticky.getLsbD 2 = true ∧
      t.esticky.getLsbD 2 = false := ⟨_, rfl, by decide +kernel, by decide +kernel⟩

theorem witness_CommandsWriteOnlyTheirColumns :
    (∃ t, exec .nop (unit []) = .next t) ∧ writesSketch .nop = false ∧ writesRval .nop = false ∧ isStore .nop = false ∧
    (∃ t, exec (.skstc 0xFFF8) (unit []) = .next t) ∧ isStore (.skstc 0xFFF8) = true ∧
      moved (unit []) (.skstc 0xFFF8) = some (0xFFF8, 8) :=
  ⟨⟨_, rfl⟩, rfl, rfl, rfl, exec_total .., rfl, rfl⟩

theorem decompress_lengths {s : State} (h : s.sk.alen.toNat ≠ 128) :
    exec (.decompress 1 2) s = .next (s.retire .invalidInput) := by
  simp [exec, execDecompress, h]

theorem witness_OnlyDecompressReportsAnError :
    ∃ t, exec (.decompress 1 2) (unit []) = .next t ∧ t.cmdcnt ≠ (unit []).cmdcnt ∧ t.result.toNat ≠ 0 :=
  ⟨_, decompress_lengths (by decide +kernel), by decide +kernel, by decide +kernel⟩

/-- Two units that differ elsewhere agree on the sources. -/
theorem witness_RingCommandsDependOnTheirSourcesOnly :
    (unit [(1, normal)]).ringReg 1 = ((unit [(1, normal), (3, normal)]).setRval 9).ringReg 1 ∧
    (unit [(1, normal)]).ringReg 2 = ((unit [(1, normal), (3, normal)]).setRval 9).ringReg 2 ∧
    (unit []).seedReg 3 = ((unit []).setRval 9).seedReg 5 := by decide +kernel

/-- A command with its destination apart from its sources, RRED and RSETL. -/
theorem witness_RepeatedCommandLeavesTheSameState :
    repeatable (.radd 1 2 3) ∧ repeatable (.rred 1) ∧ repeatable (.rsetl 1 2 3) ∧ (unit []).omem.wf ∧
    (unit []).faulted = false ∧
    ∃ t, exec (.radd 1 2 3) (unit []) = .next t ∧ t.faulted = false :=
  ⟨.inl (by decide), .inr (.inl ⟨1, rfl⟩), .inr (.inr ⟨1, 2, 3, rfl⟩), Memory.wf_nil, by decide +kernel, _, rfl,
    by decide +kernel⟩

theorem witness_RredReducesModuloQ : Normalised ((unit [(7, normal)]).ringReg 7) := normal_normalised

/-- All lanes equal, and lane 255 alone different. -/
theorem witness_ReqComparesStoredLanes :
    (∀ i < 256, lane (unit [(1, normal), (2, normal)]) 1 i = lane (unit [(1, normal), (2, normal)]) 2 i) ∧
    (∃ i < 256, lane (unit [(1, elem [(255, 1)])]) 1 i ≠ lane (unit [(1, elem [(255, 1)])]) 2 i) :=
  ⟨fun _ _ => rfl, 255, by decide, by decide +kernel⟩

theorem witness_ComputedRegistersAreNormalised :
    Instr.rmul 1 2 3 ∈ [Instr.radd 1 2 3, .rsub 1 2 3, .rmul 1 2 3, .rred 1, .rgen 1 4 5] := by decide

theorem witness_SubtractionUndoesAddition :
    (3 : RingReg) ≠ 2 ∧ (2 : RingReg) = 2 ∧ Normalised ((unit [(1, normal)]).ringReg 1) :=
  ⟨by decide, rfl, normal_normalised⟩

theorem witness_ProductHasIdentityAndCommutes :
    (∀ i < 256, lane (unit [(1, normal), (5, elem [(0, 1)])]) 5 i = if i = 0 then 1 else 0) ∧
    Normalised ((unit [(1, normal), (5, elem [(0, 1)])]).ringReg 1) :=
  ⟨by decide +kernel, normal_normalised⟩

/-- The last address in range and the first out of range, for 512 bytes (LdrLoadsLittleEndianLanes,
StrStoresLittleEndianLanes, StoreThenLoadReturnsWhatWasStored), 32 (LdsLoadsASeed, StsStoresASeed, SketchStringLoads,
SketchStringStores) and 8 (SketchStringLoads, SketchStringStores). -/
theorem witness_transfer_addresses :
    (0xFE00 : Addr).toNat ≤ 0xFE00 ∧ 0xFE00 < (0xFE01 : Addr).toNat ∧
    (0xFFE0 : Addr).toNat ≤ 0xFFE0 ∧ 0xFFE0 < (0xFFE1 : Addr).toNat ∧
    (0xFFF8 : Addr).toNat ≤ 0xFFF8 ∧ 0xFFF8 < (0xFFF9 : Addr).toNat := by decide

/-- Two entries that end at the last byte, one byte further, and none at the last address. -/
theorem witness_SketchSequenceLoads :
    Fits (0xFFFC : Addr).toNat (2 * (2 : BitVec 8).toNat) ∧ ¬ Fits (0xFFFD : Addr).toNat (2 * (2 : BitVec 8).toNat) ∧
    Fits (0xFFFF : Addr).toNat (2 * (0 : BitVec 8).toNat) := by
  unfold Fits
  decide

theorem witness_SketchSequenceStores :
    Fits (0xFF00 : Addr).toNat (2 * (holding goodSketch).sk.alen.toNat) ∧
    ¬ Fits (0xFF01 : Addr).toNat (2 * (holding goodSketch).sk.alen.toNat) ∧
    Fits (0xFF00 : Addr).toNat (2 * (holding goodSketch).sk.plen.toNat) ∧
    ¬ Fits (0xFF01 : Addr).toNat (2 * (holding goodSketch).sk.plen.toNat) := by
  unfold Fits
  decide +kernel

theorem witness_RoneBuildsTheIdentity :
    ((unit []).withPending (issueAll (Instr.rone 5) ++ [.resetInput])).faulted = false ∧
    ((unit []).withPending (issueAll (Instr.rone 5) ++ [.resetInput])).host.pending =
      issueAll (Instr.rone 5) ++ [.resetInput] := by decide +kernel

theorem isSer_ser (x : RingElem) : IsSer (ser x) x := fun i h => by
  rw [nth_ser_low _ h, nth_ser_high _ h, toNat_lowByte, toNat_highByte]; exact ⟨rfl, rfl⟩

theorem isReconstructed_reconstruct (k : Sketch) : IsReconstructed k (reconstruct k.anchor k.parity) := fun i h => by
  rw [nth_reconstruct_even _ _ h, nth_reconstruct_odd _ _ h, int_laneOfResidue]; exact ⟨rfl, rfl⟩

theorem witness_CompressMakesTheSketch : IsSer (ser normal) ((unit [(1, normal)]).ringReg 1) := isSer_ser _

/-- The four ways DECOMPRESS ends: equal destinations, a wrong length (127 and 129), a wrong checksum, and success. -/
theorem witness_DecompressChecksThenWritesBoth :
    (∀ k : Sketch, IsReconstructed k (reconstruct k.anchor k.parity) ∧
      IsSer (ser (reconstruct k.anchor k.parity)) (reconstruct k.anchor k.parity)) ∧
    (1 : RingReg) ≠ 2 ∧
    (holding (sketch 127 [] 128 [])).sk.alen.toNat ≠ 128 ∧ (holding (sketch 128 [] 129 [])).sk.plen.toNat ≠ 128 ∧
    (holding badSketch).sk.alen.toNat = 128 ∧ (holding badSketch).sk.plen.toNat = 128 ∧
    (∃ j < 8, badSketch.chk.nth j ≠ Config.checksumByte (ser (reconstruct badSketch.anchor badSketch.parity)) j) ∧
    (holding goodSketch).sk.alen.toNat = 128 ∧ (holding goodSketch).sk.plen.toNat = 128 ∧
    (∀ j < 8, goodSketch.chk.nth j = Config.checksumByte (ser (reconstruct goodSketch.anchor goodSketch.parity)) j) := by
  have good : ∀ j < 8, goodSketch.chk.nth j =
      Config.checksumByte (ser (reconstruct goodSketch.anchor goodSketch.parity)) j := fun j h => nth_chkOf _ h
  refine ⟨fun k => ⟨isReconstructed_reconstruct k, isSer_ser _⟩, by decide, by decide, by decide, rfl, rfl,
    ⟨7, by decide, ?_⟩, rfl, rfl, good⟩
  show (goodSketch.chk.set (7 : Fin 8) (goodSketch.chk.nth 7 + 1)).nth 7 ≠ _
  rw [Vec.nth_set _ _ _ (by decide), if_pos (by decide)]
  show _ ≠ Config.checksumByte (ser (reconstruct goodSketch.anchor goodSketch.parity)) 7
  rw [← good 7 (by decide)]
  simp

theorem witness_DecompressUndoesCompress :
    (2 : RingReg) ≠ 3 ∧ (∀ i < 128, lane (unit [(1, normal)]) 1 (2 * i + 1) < 3329) ∧
    ∃ t, exec (.compress 0 1 2) (unit [(1, normal)]) = .next t ∧ ∃ b, IsReconstructed t.sk b :=
  ⟨by decide, fun i h => normal_normalised (2 * i + 1) (by show _ < 256; omega), _, rfl, _,
    isReconstructed_reconstruct _⟩

/-- The last entry changed: to a value Q above, to one that differs by a non-multiple of Q, and an anchor. -/
theorem witness_TamperingIsSeenThroughTheChecksum :
    (2 : RingReg) ≠ 3 ∧ (127 : Fin 256).val < 128 ∧ Normalised ((unit [(1, normal)]).ringReg 1) ∧
    ∃ t, exec (.compress 0 1 2) (unit [(1, normal)]) = .next t ∧
      (3329 : Lane).toNat % 3329 = (t.sk.parity.nth 127).toNat % 3329 ∧
      (1 : Lane).toNat % 3329 ≠ (t.sk.parity.nth 127).toNat % 3329 ∧
      (∃ b, IsReconstructed { t.sk with parity := t.sk.parity.set (127 : Fin 256) 1 } b) ∧
      (3329 : Lane) ≠ t.sk.anchor.nth 127 ∧
      (∃ b, IsReconstructed { t.sk with anchor := t.sk.anchor.set (127 : Fin 256) 3329 } b) :=
  ⟨by decide, by decide, normal_normalised, _, rfl, by decide +kernel, by decide +kernel,
    ⟨_, isReconstructed_reconstruct _⟩, by decide +kernel, ⟨_, isReconstructed_reconstruct _⟩⟩

theorem witness_ChecksumDoesNotCoverTheSeed :
    (2 : RingReg) ≠ 3 ∧ Normalised ((unit [(1, normal)]).ringReg 1) := ⟨by decide, normal_normalised⟩

/-- The layout of 42_sketch_codec.md R159 from 0x1000 on, the sequences of full length, loaded back in the state the
stores left. -/
theorem witness_SketchSurvivesATripThroughMemory :
    let s := holding goodSketch
    let n := s.sk.alen.toNat
    let m := s.sk.plen.toNat
    Fits 0x1000 32 ∧ Fits 0x1020 (2 * n) ∧ Fits 0x1120 8 ∧ Fits 0x1128 (2 * m) ∧
    List.Pairwise (fun x y : Nat × Nat => x.2 = 0 ∨ y.2 = 0 ∨ x.1 + x.2 ≤ y.1 ∨ y.1 + y.2 ≤ x.1)
      [(0x1000, 32), (0x1020, 2 * n), (0x1120, 8), (0x1128, 2 * m)] ∧
    ∃ t1 t2 t3 t4 v1 v2 v3 v4,
      exec (.sksts 0x1000) s = .next t1 ∧ exec (.sksta 0x1020) t1 = .next t2 ∧ exec (.skstc 0x1120) t2 = .next t3 ∧
      exec (.skstp 0x1128) t3 = .next t4 ∧
      exec (.sklds 0x1000) t4 = .next v1 ∧ exec (.sklda 0x1020 s.sk.alen) v1 = .next v2 ∧
      exec (.skldc 0x1120) v2 = .next v3 ∧ exec (.skldp 0x1128 s.sk.plen) v3 = .next v4 := by
  obtain ⟨t1, h1⟩ := exec_total (.sksts 0x1000) (holding goodSketch)
  obtain ⟨t2, h2⟩ := exec_total (.sksta 0x1020) t1
  obtain ⟨t3, h3⟩ := exec_total (.skstc 0x1120) t2
  obtain ⟨t4, h4⟩ := exec_total (.skstp 0x1128) t3
  obtain ⟨v1, k1⟩ := exec_total (.sklds 0x1000) t4
  obtain ⟨v2, k2⟩ := exec_total (.sklda 0x1020 (holding goodSketch).sk.alen) v1
  obtain ⟨v3, k3⟩ := exec_total (.skldc 0x1120) v2
  obtain ⟨v4, k4⟩ := exec_total (.skldp 0x1128 (holding goodSketch).sk.plen) v3
  exact ⟨by unfold Fits; decide +kernel, by unfold Fits; decide +kernel, by unfold Fits; decide +kernel,
    by unfold Fits; decide +kernel, by decide +kernel, t1, t2, t3, t4, v1, v2, v3, v4, h1, h2, h3, h4, k1, k2, k3, k4⟩

theorem witness_AssembledCommandsAreWellFormed :
    assembleLine "DECOMPRESS R1, R2".toList = some [.decompress 1 2] ∧
      Instr.decompress 1 2 ∈ [Instr.decompress 1 2] := by decide +kernel

end Sys2Proof.Tests
end

section
/-! The ring commands as operations on polynomials over Z_Q (00_scope.md R3; 40_ring_arith.md R100 to R102). Each lane
they write is the residue of an exact integer, so its class in `ZMod 3329` is that integer's; the product of two
polynomials has the model's `conv` as its coefficients, and its upper half times X^N + 1 is what RMUL drops. -/

namespace Sys2Proof.Machine

open Sys2Proof Sys2Proof.Claims

/-! ### Residues and polynomials -/

/-- A lane that holds a residue names the class of the exact integer. -/
theorem cast_laneOfResidue (v : Int) : ((laneOfResidue v).toNat : ZMod 3329) = v := by
  calc ((laneOfResidue v).toNat : ZMod 3329)
      = (((laneOfResidue v).toNat : Int) : ZMod 3329) := (Int.cast_natCast _).symm
    _ = ((v % 3329 : Int) : ZMod 3329) := by rw [int_laneOfResidue]
    _ = v := ZMod.intCast_mod v 3329

theorem coeff_sum_C_mul_X_pow {R : Type} [Semiring R] (n : Nat) (c : Nat → R) (k : Nat) :
    (∑ i ∈ Finset.range n, Polynomial.C (c i) * Polynomial.X ^ i).coeff k = if k < n then c k else 0 := by
  simp

theorem coeff_poly (x : RingElem) (k : Nat) :
    (poly x).coeff k = if k < 256 then (coeff x k : ZMod 3329) else 0 :=
  coeff_sum_C_mul_X_pow 256 (fun i => (coeff x i : ZMod 3329)) k

/-- The polynomial of an element whose lanes are residues of the exact integers `v i`. -/
theorem poly_of_residues {x : RingElem} {v : Nat → Int} (h : ∀ i < 256, x.nth i = laneOfResidue (v i)) :
    poly x = ∑ i ∈ Finset.range 256, Polynomial.C (v i : ZMod 3329) * Polynomial.X ^ i := by
  refine Finset.sum_congr rfl fun i hi => ?_
  rw [h i (Finset.mem_range.1 hi), cast_laneOfResidue]

/-! ### Sum and difference -/

theorem poly_ringAdd (x y : RingElem) : poly (ringAdd x y) = poly x + poly y := by
  rw [poly_of_residues fun i hi => nth_ringAdd x y hi, poly, poly, ← Finset.sum_add_distrib]
  refine Finset.sum_congr rfl fun i _ => ?_
  simp [coeff, add_mul]

theorem poly_ringSub (x y : RingElem) : poly (ringSub x y) = poly x - poly y := by
  rw [poly_of_residues fun i hi => nth_ringSub x y hi, poly, poly, ← Finset.sum_sub_distrib]
  refine Finset.sum_congr rfl fun i _ => ?_
  simp [coeff, sub_mul]

/-! ### Product -/

/-- `conv` as a sum over the pairs of indices that add to `k`. -/
theorem conv_eq_sum_range_succ (x y : RingElem) (k : Nat) :
    conv x y k = ∑ j ∈ Finset.range (k + 1), if j < 256 ∧ k - j < 256 then coeff x j * coeff y (k - j) else 0 := by
  rw [conv, sumTo_eq_sum, ← Finset.sum_filter, ← Finset.sum_filter]
  refine Finset.sum_congr (Finset.ext fun j => ?_) fun _ _ => rfl
  simp only [Finset.mem_filter, Finset.mem_range, Config.N]
  omega

/-- Two indices below N add to less than 2N. -/
theorem conv_eq_zero (x y : RingElem) {k : Nat} (h : 512 ≤ k) : conv x y k = 0 := by
  rw [conv_eq_sum_range_succ]
  exact Finset.sum_eq_zero fun j _ => if_neg (by omega)

theorem coeff_poly_mul_poly (x y : RingElem) (k : Nat) :
    (poly x * poly y).coeff k = (conv x y k : ZMod 3329) := by
  rw [Polynomial.coeff_mul,
    Finset.Nat.sum_antidiagonal_eq_sum_range_succ fun i j => (poly x).coeff i * (poly y).coeff j,
    conv_eq_sum_range_succ, Nat.cast_sum]
  refine Finset.sum_congr rfl fun j _ => ?_
  simp only [coeff_poly, ite_zero_mul_ite_zero]
  push_cast
  rfl

/-- The coefficients of the product from X^N on, moved down by N: what RMUL subtracts. -/
noncomputable def upperProduct (x y : RingElem) : Polynomial (ZMod 3329) :=
  ∑ i ∈ Finset.range 256, Polynomial.C (conv x y (i + 256) : ZMod 3329) * Polynomial.X ^ i

theorem coeff_upperProduct (x y : RingElem) (k : Nat) :
    (upperProduct x y).coeff k = (conv x y (k + 256) : ZMod 3329) := by
  rw [upperProduct, coeff_sum_C_mul_X_pow 256 fun i => (conv x y (i + 256) : ZMod 3329)]
  split
  · rfl
  · rw [conv_eq_zero x y (by omega), Nat.cast_zero]

theorem coeff_poly_ringMul (x y : RingElem) (k : Nat) :
    (poly (ringMul x y)).coeff k =
      if k < 256 then (conv x y k : ZMod 3329) - (conv x y (k + 256) : ZMod 3329) else 0 := by
  rw [poly_of_residues fun i hi => nth_ringMul x y hi,
    coeff_sum_C_mul_X_pow 256 fun i => (((conv x y i : Int) - conv x y (i + 256) : Int) : ZMod 3329)]
  push_cast
  rfl

/-- X^N counts as -1: the product and RMUL's result differ by the upper half times X^N + 1. -/
theorem poly_mul_eq_poly_ringMul_add (x y : RingElem) :
    poly x * poly y = poly (ringMul x y) + (Polynomial.X ^ 256 + 1) * upperProduct x y := by
  ext k
  rw [Polynomial.coeff_add, coeff_poly_mul_poly, coeff_poly_ringMul, add_mul, one_mul, Polynomial.coeff_add,
    Polynomial.coeff_X_pow_mul', coeff_upperProduct, coeff_upperProduct]
  by_cases hk : k < 256
  · rw [if_pos hk, if_neg (by omega)]
    ring
  · rw [if_neg hk, if_pos (by omega), Nat.sub_add_cancel (by omega), conv_eq_zero x y (k := k + 256) (by omega)]
    simp

theorem X_pow_add_one_dvd_poly_mul_sub (x y : RingElem) :
    (Polynomial.X ^ 256 + 1) ∣ poly x * poly y - poly (ringMul x y) :=
  ⟨upperProduct x y, by rw [poly_mul_eq_poly_ringMul_add, add_sub_cancel_left]⟩

/-! ### The commands -/

theorem exec_radd (rd rs1 rs2 : RingReg) (s : State) : exec (.radd rd rs1 rs2) s =
    .next ((s.setRing rd (ringAdd (s.ringReg rs1) (s.ringReg rs2))).retire .ok) := rfl

theorem exec_rsub (rd rs1 rs2 : RingReg) (s : State) : exec (.rsub rd rs1 rs2) s =
    .next ((s.setRing rd (ringSub (s.ringReg rs1) (s.ringReg rs2))).retire .ok) := rfl

theorem exec_rmul (rd rs1 rs2 : RingReg) (s : State) : exec (.rmul rd rs1 rs2) s =
    .next ((s.setRing rd (ringMul (s.ringReg rs1) (s.ringReg rs2))).retire .ok) := rfl

/-- Settles O35, lane by lane for the sum and the difference, and for the product by its coefficients, which are `conv`. -/
theorem ringCommandsRealiseTheQuotientRing : Obligations.RingCommandsRealiseTheQuotientRing := by
  intro rd rs1 rs2 s
  refine ⟨⟨_, exec_radd rd rs1 rs2 s, ?sum⟩, ⟨_, exec_rsub rd rs1 rs2 s, ?difference⟩,
    ⟨_, exec_rmul rd rs1 rs2 s, ?product⟩⟩ <;> rw [State.ringReg_retire, State.ringReg_setRing_same]
  case sum => exact poly_ringAdd ..
  case difference => exact poly_ringSub ..
  case product => exact X_pow_add_one_dvd_poly_mul_sub ..

end Sys2Proof.Machine
end

section
/-! The state family (10_state.md). What a command can do is said once, as the updates its row of R25's table allows;
the invariant of R44, the sticky bits of R31, the count of R23 and the table itself are read off it. -/

namespace Sys2Proof.Machine

open Sys2Proof Sys2Proof.Claims

/-! ### What a command can do -/

/-- What command `i` may have written to `s` when it retires: one update, in a column where its row of 10_state.md R25
has a W. A store lies inside operand memory, and RVAL holds a value of R32. -/
inductive CommandEffect (i : Instr) (s : State) : State → Prop
  | nothing : CommandEffect i s s
  | clearSticky (hi : i = .clrerr) : CommandEffect i s s.clearSticky
  | ring {d : RingReg} {x : RingElem} (hd : d ∈ ringDests i) : CommandEffect i s (s.setRing d x)
  | twoRings {d e : RingReg} {x y : RingElem} (hd : d ∈ ringDests i) (he : e ∈ ringDests i) :
      CommandEffect i s ((s.setRing d x).setRing e y)
  | seed {k : SeedReg} {x : Seed} (hk : k ∈ seedDests i) : CommandEffect i s (s.setSeed k x)
  | sketch {k : Sketch} (hi : writesSketch i = true) : CommandEffect i s (s.setSketch k)
  | rval {v : Word} (hi : writesRval i = true) (hv : v.toNat < 65536) : CommandEffect i s (s.setRval v)
  | store {a : Addr} {n : Nat} {bs : List Byte} (hi : isStore i = true) (hm : moved s i = some (a.toNat, n))
      (hn : bs.length = n) (hr : InRange a.toNat n) : CommandEffect i s (s.memWrite a.toNat bs)

/-- How command `i` ends on `s`: with a fault for its own word, or retired after its effect, with an error only from
DECOMPRESS (60_exceptions.md R181, R183). -/
inductive CommandOutcome (i : Instr) (s : State) : State → Prop
  | fault (cause : FaultCause) : CommandOutcome i s (s.raiseFault cause (encode i))
  | retired {u : State} {c : ResultCode} (he : CommandEffect i s u)
      (hc : c = .ok ∨ (c = .invalidInput ∨ c = .checksumMismatch) ∧ ∃ a b, i = .decompress a b) :
      CommandOutcome i s (u.retire c)

theorem CommandOutcome.ok {i : Instr} {s u : State} (he : CommandEffect i s u) : CommandOutcome i s (u.retire .ok) :=
  .retired he (.inl rfl)

/-- A transfer has its effect only where its bytes all exist (20_memory.md R56). -/
theorem transfer_outcome {i : Instr} {addr : Addr} {n : Nat} {act : State → State} {s : State}
    (he : InRange addr.toNat n → CommandEffect i s (act s)) :
    ∃ t, transfer (encode i) addr n act s = .next t ∧ CommandOutcome i s t := by
  by_cases hr : InRange addr.toNat n
  · exact ⟨_, transfer_inRange hr, .ok (he hr)⟩
  · exact ⟨_, transfer_outOfRange hr, .fault .addrRange⟩

theorem decompress_outcome (rda rdb : RingReg) (s : State) :
    ∃ t, exec (.decompress rda rdb) s = .next t ∧ CommandOutcome (.decompress rda rdb) s t := by
  simp only [exec, execDecompress]
  split
  · exact ⟨_, rfl, .fault .illegalCmd⟩
  split
  · exact ⟨_, rfl, .retired .nothing (.inr ⟨.inl rfl, _, _, rfl⟩)⟩
  split
  · exact ⟨_, rfl, .retired .nothing (.inr ⟨.inr rfl, _, _, rfl⟩)⟩
  · exact ⟨_, rfl, .ok (.twoRings (.head _) (.tail _ (.head _)))⟩

theorem toNat_truthValue_lt (p : Prop) [Decidable p] : (if p then 1 else 0 : Word).toNat < 65536 := by
  split <;> decide

theorem toNat_wordOfLane_lt (x : Lane) : (wordOfLane x).toNat < 65536 := by
  rw [wordOfLane, BitVec.toNat_ofNat]
  exact (Nat.mod_le ..).trans_lt x.isLt

/-- A sketch is never larger than SKSIZE can say in 16 bits (42_sketch_codec.md R144). -/
theorem toNat_sketchSize_lt (k : Sketch) :
    (BitVec.ofNat 32 (32 + 2 * k.alen.toNat + 8 + 2 * k.plen.toNat)).toNat < 65536 := by
  have := k.alen.isLt
  have := k.plen.isLt
  rw [BitVec.toNat_ofNat]
  omega

/-- Every command answers a next state, and this is all it can be. -/
theorem exec_outcome (i : Instr) (s : State) : ∃ t, exec i s = .next t ∧ CommandOutcome i s t := by
  cases i with
  | nop => exact ⟨_, rfl, .ok .nothing⟩
  | clrerr => exact ⟨_, rfl, .ok (.clearSticky rfl)⟩
  | radd | rsub | rmul | rred | rgen | rzero | rsetl => exact ⟨_, rfl, .ok (.ring (.head _))⟩
  | req => exact ⟨_, rfl, .ok (.rval rfl (toNat_truthValue_lt _))⟩
  | rgetl => exact ⟨_, rfl, .ok (.rval rfl (toNat_wordOfLane_lt _))⟩
  | ksize => exact ⟨_, rfl, .ok (.rval rfl (by decide))⟩
  | sksize => exact ⟨_, rfl, .ok (.rval rfl (toNat_sketchSize_lt _))⟩
  | compress => exact ⟨_, rfl, .ok (.sketch rfl)⟩
  | decompress rda rdb => exact decompress_outcome rda rdb s
  | ldr => rw [exec, execLdr]; exact transfer_outcome fun _ => .ring (.head _)
  | lds => rw [exec, execLds]; exact transfer_outcome fun _ => .seed (.head _)
  | sklds | sklda | skldc | skldp =>
    simp only [exec, execSklds, execSklda, execSkldc, execSkldp]
    exact transfer_outcome fun _ => .sketch rfl
  | str | sts | sksts | skstc =>
    simp only [exec, execStr, execSts, execSksts, execSkstc]
    exact transfer_outcome (.store rfl rfl (Vec.length_eq _))
  | sksta => rw [exec, execSksta]; exact transfer_outcome (.store rfl rfl (length_entryBytes s.sk.alen.isLt.le _))
  | skstp => rw [exec, execSkstp]; exact transfer_outcome (.store rfl rfl (length_entryBytes s.sk.plen.isLt.le _))

theorem exec_next {i : Instr} {s t : State} (h : exec i s = .next t) : CommandOutcome i s t := by
  obtain ⟨t', ht', ho⟩ := exec_outcome i s
  rw [h] at ht'
  cases ht'
  exact ho

/-! ### What an effect leaves as it was -/

namespace CommandEffect

variable {i : Instr} {s u : State}

theorem status (he : CommandEffect i s u) : u.status = s.status := by cases he <;> rfl
theorem fcause (he : CommandEffect i s u) : u.fcause = s.fcause := by cases he <;> rfl
theorem fcmd (he : CommandEffect i s u) : u.fcmd = s.fcmd := by cases he <;> rfl
theorem cmdcnt (he : CommandEffect i s u) : u.cmdcnt = s.cmdcnt := by cases he <;> rfl
theorem host (he : CommandEffect i s u) : u.host = s.host := by cases he <;> rfl
theorem epoch (he : CommandEffect i s u) : u.epoch = s.epoch := by cases he <;> rfl

theorem ringsKept (he : CommandEffect i s u) : RingsKept (ringDests i) s u := by
  intro r hr
  cases he with
  | ring hd => rw [State.ringReg_setRing, if_neg (ne_of_mem_of_not_mem hd hr).symm]
  | twoRings hd hd' =>
    rw [State.ringReg_setRing, if_neg (ne_of_mem_of_not_mem hd' hr).symm, State.ringReg_setRing,
      if_neg (ne_of_mem_of_not_mem hd hr).symm]
  | _ => rfl

theorem seedsKept (he : CommandEffect i s u) : SeedsKept (seedDests i) s u := by
  intro k hk
  cases he with
  | seed hd => rw [State.seedReg_setSeed, if_neg (ne_of_mem_of_not_mem hd hk).symm]
  | _ => rfl

theorem sk_eq (he : CommandEffect i s u) (hi : writesSketch i = false) : u.sk = s.sk := by
  cases he with
  | sketch hw => simp [hw] at hi
  | _ => rfl

theorem rval_eq (he : CommandEffect i s u) (hi : writesRval i = false) : u.rval = s.rval := by
  cases he with
  | rval hw => simp [hw] at hi
  | _ => rfl

theorem memKept (he : CommandEffect i s u) (hi : isStore i = false) : MemKept s u := by
  cases he with
  | store hw => simp [hw] at hi
  | _ => exact fun _ => rfl

theorem memKeptOutside (he : CommandEffect i s u) {a n : Nat} (hm : moved s i = some (a, n)) :
    MemKeptOutside a n s u := by
  intro p hp
  cases he with
  | store _ hm' hn _ =>
    rw [hm] at hm'
    cases hm'
    rw [State.readByte_memWrite, dif_neg (by omega)]
  | _ => rfl

theorem esticky_eq_or (he : CommandEffect i s u) : u.esticky = s.esticky ∨ i = .clrerr ∧ u.esticky = 0 := by
  cases he with
  | clearSticky hi => exact .inr ⟨hi, rfl⟩
  | _ => exact .inl rfl

theorem rval_lt (he : CommandEffect i s u) (h : s.rval.toNat < 65536) : u.rval.toNat < 65536 := by
  cases he with
  | rval _ hv => exact hv
  | _ => exact h

theorem omem_wf (he : CommandEffect i s u) (h : s.omem.wf) : u.omem.wf := by
  cases he with
  | @store a _ _ _ _ hn hr =>
    have := a.isLt
    exact Memory.wf_writeBytes h (by simp only [Config.OMEM_BYTES]; omega)
  | _ => exact h

end CommandEffect

/-! ### Sticky bits -/

theorem getLsbD_stickyAfter {e : Word} {k : Nat} (h : e.getLsbD k = true) (c : ResultCode) :
    (stickyAfter e c).getLsbD k = true := by
  cases c <;> simp [stickyAfter, h]

/-- The code of an error stands in ESTICKY as soon as it stands in RESULT. -/
theorem stickyAfter_records (e : Word) {c : ResultCode} (h : c.word ≠ 0) :
    (stickyAfter e c).getLsbD c.word.toNat = true := by
  cases c with
  | ok => exact absurd rfl h
  | _ => simp [stickyAfter, ResultCode.number]

/-- No command yields code 3, so bit 3 stays 0 (60_exceptions.md R183). -/
theorem stickyAfter_reserved {e : Word} {c : ResultCode} (h : e &&& ~~~(6#32) = 0) (hc : c ≠ .reconstructionFailed) :
    stickyAfter e c &&& ~~~(6#32) = 0 := by
  cases c with
  | ok => exact h
  | reconstructionFailed => exact absurd rfl hc
  | invalidInput => rw [stickyAfter_invalidInput, BitVec.and_or_distrib_right, h]; rfl
  | checksumMismatch => rw [stickyAfter_checksumMismatch, BitVec.and_or_distrib_right, h]; rfl

/-- A command other than CLRERR clears no sticky bit. -/
theorem CommandOutcome.sticky {i : Instr} {s t : State} (ho : CommandOutcome i s t) (hi : i ≠ .clrerr) {k : Nat}
    (hk : s.esticky.getLsbD k = true) : t.esticky.getLsbD k = true := by
  cases ho with
  | fault => exact hk
  | retired he _ =>
    rcases he.esticky_eq_or with h | ⟨h, -⟩
    · exact getLsbD_stickyAfter (h ▸ hk) _
    · exact absurd h hi

/-! ### The table of 10_state.md R25 -/

/-- Settles O20: a fault writes none of the columns, and a retiring command only those of its effect. -/
theorem commandsWriteOnlyTheirColumns : Obligations.CommandsWriteOnlyTheirColumns := by
  intro i s t h
  have ho := exec_next h
  have hsticky : i ≠ .clrerr → ∀ k, s.esticky.getLsbD k = true → t.esticky.getLsbD k = true :=
    fun hi _ => ho.sticky hi
  cases ho with
  | fault =>
    exact ⟨fun _ _ => rfl, fun _ _ => rfl, fun _ => rfl, fun _ => rfl, fun _ _ => rfl, fun _ _ _ _ _ _ => rfl,
      hsticky, rfl, rfl⟩
  | retired he =>
    exact ⟨he.ringsKept, he.seedsKept, he.sk_eq, he.rval_eq, he.memKept, fun _ _ _ => he.memKeptOutside,
      hsticky, he.host, he.epoch⟩

/-! ### The invariant -/

namespace State.Inv

variable {s : State}

theorem atReset (e : Nat) (host : HostPort) : (State.atReset e host).Inv := by
  constructor
  case omem_wf => exact Memory.wf_nil
  all_goals simp [State.atReset]

/-- The invariant says nothing of the host. -/
theorem withHost (hs : s.Inv) (host : HostPort) : ({ s with host := host } : State).Inv :=
  { hs with }

theorem writeByte (hs : s.Inv) (a : Addr) (v : Byte) : (s.memWrite a.toNat [v]).Inv :=
  { hs with omem_wf := Memory.wf_writeBytes hs.omem_wf a.isLt }

theorem raiseFault (hs : s.Inv) (c : FaultCause) (w : Word) : (s.raiseFault c w).Inv :=
  { hs with
    status_bit := .inr rfl
    fcause_code := by cases c <;> simp
    fault_cause := by cases c <;> simp
    fcmd_zero := by simp }

/-- CLRERR breaks `error_recorded` for the moment between its effect and its retirement, so the two go together. -/
theorem retire (hs : s.Inv) {i : Instr} {u : State} (he : CommandEffect i s u) {c : ResultCode}
    (hc : c ≠ .reconstructionFailed) : (u.retire c).Inv where
  status_bit := by simpa [he.status] using hs.status_bit
  result_code := by cases c <;> simp_all
  esticky_bits := by
    refine stickyAfter_reserved ?_ hc
    rcases he.esticky_eq_or with h | ⟨-, h⟩ <;> rw [h]
    · exact hs.esticky_bits
    · rfl
  error_recorded := stickyAfter_records _
  rval_range := he.rval_lt hs.rval_range
  fcause_code := by simpa [he.fcause] using hs.fcause_code
  fault_cause := by simpa [he.status, he.fcause] using hs.fault_cause
  fcmd_zero := by simpa [he.status, he.fcmd] using hs.fcmd_zero
  omem_wf := he.omem_wf hs.omem_wf

theorem of_command (hs : s.Inv) {i : Instr} {t : State} (ho : CommandOutcome i s t) : t.Inv := by
  cases ho with
  | fault c => exact hs.raiseFault c _
  | retired he hc => exact hs.retire he (by rcases hc with rfl | ⟨rfl | rfl, -⟩ <;> nofun)

theorem of_issue (hs : s.Inv) {w : Word} {t : State} (h : issue w s = .next t) : t.Inv := by
  rcases issue_next h with ⟨-, rfl⟩ | ⟨-, -, rfl⟩ | ⟨-, i, -, hx⟩
  · exact hs
  · exact hs.raiseFault _ w
  · exact hs.of_command (exec_next hx)

theorem of_perform (hs : s.Inv) {a : HostAction} {t : State} (h : perform a s = .next t) : t.Inv := by
  cases a with
  | writeMem a v => cases h; exact hs.writeByte a v
  | readMem a => cases h; exact hs.withHost _
  | readCtrl off => cases h; exact hs.withHost _
  | resetInput => cases h; exact atReset ..
  | writeCtrl off w =>
    rcases writeCtrl_next h with ⟨-, hi⟩ | ⟨-, -, rfl⟩ | rfl
    · exact hs.of_issue hi
    · exact atReset ..
    · exact hs

end State.Inv

/-- Settles O18: each action of the host keeps the invariant, and taking it off the queue touches nothing it speaks of. -/
theorem stepKeepsTheInvariant : Obligations.StepKeepsTheInvariant := by
  intro s t hs h
  cases hp : s.host.pending with
  | nil => rw [step_idle hp] at h; cases h; exact hs
  | cons a q =>
    rw [step_action hp] at h
    exact (hs.withHost _).of_perform h

/-- Settles O17, as every reset meets the invariant. -/
theorem resetMeetsTheInvariant : Obligations.ResetMeetsTheInvariant :=
  ⟨.atReset .., rfl, rfl, rfl, rfl, rfl⟩

/-! ### A sticky bit is cleared by CLRERR or by reset -/

theorem issue_sticky {w : Word} {s t : State} (h : issue w s = .next t) {k : Nat}
    (hs : s.esticky.getLsbD k = true) (ht : t.esticky.getLsbD k = false) : decode w = some .clrerr := by
  rcases issue_next h with ⟨-, rfl⟩ | ⟨-, -, rfl⟩ | ⟨-, i, hd, hx⟩
  · simp [hs] at ht
  · simp [hs] at ht
  · by_cases hi : i = .clrerr
    · exact hi ▸ hd
    · simp [(exec_next hx).sticky hi hs] at ht

/-- Settles O19: of the host's actions only a reset and the command CLRERR write ESTICKY without keeping its set bits. -/
theorem stickyBitsStaySet : Obligations.StickyBitsStaySet := by
  intro s t k h hs ht
  cases hp : s.host.pending with
  | nil => rw [step_idle hp] at h; cases h; simp [hs] at ht
  | cons a q =>
    refine ⟨a, q, rfl, ?_⟩
    rw [step_action hp] at h
    cases a with
    | resetInput => exact .inl rfl
    | writeMem a v => cases h; simp [hs] at ht
    | readMem a => cases h; simp [hs] at ht
    | readCtrl off => cases h; simp [hs] at ht
    | writeCtrl off w =>
      rcases writeCtrl_next h with ⟨rfl, hi⟩ | ⟨rfl, hw, -⟩ | rfl
      · exact .inr (.inr ⟨w, rfl, issue_sticky hi hs ht⟩)
      · exact .inr (.inl ⟨w, rfl, hw⟩)
      · simp [hs] at ht

/-! ### CMDCNT along a program -/

theorem issue_host {w : Word} {s t : State} (h : issue w s = .next t) : t.host = s.host := by
  rcases issue_next h with ⟨-, rfl⟩ | ⟨-, -, rfl⟩ | ⟨-, i, -, hx⟩
  · rfl
  · rfl
  · cases exec_next hx with
    | fault => rfl
    | retired he => exact he.host

/-- A CMD write after which the unit is not faulted has retired one command. -/
theorem issue_unfaulted {w : Word} {s t : State} (h : issue w s = .next t) (ht : t.faulted = false) :
    t.cmdcnt = s.cmdcnt + 1 ∧ s.faulted = false := by
  rcases issue_next h with ⟨hf, rfl⟩ | ⟨-, -, rfl⟩ | ⟨hf, i, -, hx⟩
  · simp [hf] at ht
  · simp at ht
  · cases exec_next hx with
    | fault => simp at ht
    | retired he => exact ⟨by rw [State.retire_cmdcnt, he.cmdcnt], hf⟩

/-- A run of one step more has gone through the state after its first step. -/
theorem run_succ_next {k : Nat} {s t : State} (h : Host.Core.run core (k + 1) s = .next t) :
    ∃ u, step s = .next u ∧ Host.Core.run core k u = .next t := by
  cases hu : step s with
  | next u => exact ⟨u, rfl, run_succ hu ▸ h⟩
  | fault r => exact nomatch r
  | refused r => simp [Host.Core.run, show core.step s = .refused r from hu] at h

/-- Along a program whose run ends unfaulted no command faulted, as a fault would have stayed: each has retired. -/
theorem run_issueAll {is : List Instr} {s t : State} (hp : s.host.pending = issueAll is)
    (h : Host.Core.run core is.length s = .next t) (ht : t.faulted = false) :
    t.cmdcnt = s.cmdcnt + BitVec.ofNat 32 is.length ∧ t.host.pending = [] ∧ s.faulted = false := by
  induction is generalizing s with
  | nil => cases h; exact ⟨by simp, hp, ht⟩
  | cons i is ih =>
    obtain ⟨u, hstep, hrun⟩ := run_succ_next h
    have hissue : issue (encode i) (s.withPending (issueAll is)) = .next u := (step_action hp).symm.trans hstep
    have hhost := issue_host hissue
    obtain ⟨hcount, hpend, hu⟩ := ih (by rw [hhost]; rfl) hrun
    obtain ⟨hone, hs⟩ := issue_unfaulted hissue hu
    refine ⟨?_, hpend, hs⟩
    rw [hcount, hone, State.withPending_cmdcnt, List.length_cons, Nat.add_comm, BitVec.ofNat_add, BitVec.add_assoc]
    rfl

/-- Settles O12, by induction on the program. -/
theorem cmdcntCountsRetiredCommands : Obligations.CmdcntCountsRetiredCommands := by
  intro is s t _ hp _ h ht
  obtain ⟨hcount, hpend, -⟩ := run_issueAll hp h ht
  exact ⟨by rw [hcount, BitVec.toNat_add, BitVec.toNat_ofNat, Nat.add_mod_mod], hpend⟩

/-! ### The control space -/

/-- Settles O14: no offset but those of CMD and CTRL is written, and CTRL acts on bit 0 alone. -/
theorem otherControlWritesAreIgnored : Obligations.OtherControlWritesAreIgnored := by
  intro s off w q hp h0 h
  rw [step_action hp, perform_writeCtrl]
  by_cases h1 : off = 0x30
  · have hw : w.getLsbD 0 = false := h.resolve_left (absurd h1)
    rw [h1, writeCtrl_ctrl, hw]
    rfl
  · exact writeCtrl_other h0 h1 w _

theorem readCtrl_withPending (s : State) (q : List HostAction) (off : Nat) :
    (s.withPending q).readCtrl off = s.readCtrl off := rfl

/-- An offset that is none of the readable registers' is unassigned or holds no state. -/
theorem atOffset_unreadable {off : Nat}
    (h : off ∉ [0x04, 0x08, 0x0C, 0x10, 0x14, 0x18, 0x1C, 0x20, 0x24, 0x28, 0x2C, 0x34]) :
    CtrlReg.atOffset off = none ∨ CtrlReg.atOffset off = some .cmd ∨ CtrlReg.atOffset off = some .ctrl := by
  unfold CtrlReg.atOffset
  split <;> simp_all

theorem readCtrl_unreadable {off : Nat}
    (h : off ∉ [0x04, 0x08, 0x0C, 0x10, 0x14, 0x18, 0x1C, 0x20, 0x24, 0x28, 0x2C, 0x34]) (s : State) :
    s.readCtrl off = 0 := by
  rcases atOffset_unreadable h with hr | hr | hr <;> simp [State.readCtrl, CtrlReg.value, hr]

/-- A length of the sketch register fits the word it is read as. -/
theorem toNat_ofNat_length (n : BitVec 8) : (BitVec.ofNat 32 n.toNat).toNat = n.toNat := by
  have := n.isLt
  rw [BitVec.toNat_ofNat]
  omega

/-- Settles O15: the value is `State.readCtrl`'s, which is evaluated at each offset of the map. -/
theorem controlReadsFollowTheMap : Obligations.ControlReadsFollowTheMap := by
  intro s off q hp
  refine ⟨s.readCtrl off, ?_, ?_, ?_, ?_, ?_, ?_, ?_, ?_, ?alen, ?plen, ?_, ?_, ?_, fun h => readCtrl_unreadable h s⟩
  · rw [step_action hp, perform_readCtrl, readCtrl_withPending]
  case alen => rintro rfl; exact toNat_ofNat_length s.sk.alen
  case plen => rintro rfl; exact toNat_ofNat_length s.sk.plen
  all_goals rintro rfl; rfl

end Sys2Proof.Machine
end

section
/-! The memory family (20_memory.md). Each of the twelve commands that move bytes is a `transfer` of the bytes R55 gives
it, so the range check of R56 is said once, for `transfer`; a register stored and loaded back is R50's byte form read
where it was written. -/

namespace Sys2Proof.Machine

open Sys2Proof Sys2Proof.Claims

/-! ### The range check -/

/-- The model's test, written with `n - 1` as in R56, is the statements' one: both say that the last byte exists. -/
theorem inRange_iff_fits (a n : Nat) : InRange a n ↔ Fits a n := by
  unfold InRange Fits
  omega

/-- A command that moves bytes is a transfer of them, and its effect leaves STATUS and CMDCNT to `transfer`. -/
theorem exec_of_moved {i : Instr} {s : State} {a n : Nat} (hm : moved s i = some (a, n)) :
    ∃ (addr : Addr) (act : State → State), addr.toNat = a ∧ exec i s = transfer (encode i) addr n act s ∧
      (act s).status = s.status ∧ (act s).cmdcnt = s.cmdcnt := by
  cases i with
  | ldr | str | lds | sts | sklds | sksts | sklda | sksta | skldc | skstc | skldp | skstp =>
    cases hm
    simp only [exec, execLdr, execStr, execLds, execSts, execSklds, execSksts, execSklda, execSksta, execSkldc,
      execSkstc, execSkldp, execSkstp]
    exact ⟨_, _, rfl, rfl, rfl, rfl⟩
  | nop | clrerr | radd | rsub | rmul | rred | req | rgen | rzero | rsetl | rgetl | compress | decompress | ksize
  | sksize => cases hm

/-- No byte lies inside a range of none. -/
theorem memKept_of_moved_zero {i : Instr} {s t : State} {a : Nat} (h : exec i s = .next t)
    (hm : moved s i = some (a, 0)) : MemKept s t := by
  cases exec_next h with
  | fault => exact fun _ => rfl
  | retired he => exact fun p => he.memKeptOutside hm p (Nat.lt_or_ge p a)

theorem faultEntered_raiseFault (c : FaultCause) (w : Word) (s : State) :
    FaultEntered c.code.toNat w s (s.raiseFault c w) := by
  constructor <;> rfl

/-- Settles O8: `transfer` retires the command or raises the fault by the very test `Fits` states. -/
theorem rangeFaultExactlyWhenOutOfRange : Obligations.RangeFaultExactlyWhenOutOfRange := by
  intro i s a n hm
  obtain ⟨addr, act, rfl, hexec, hstatus, hcount⟩ := exec_of_moved hm
  by_cases hf : Fits addr.toNat n
  · have h : exec i s = .next ((act s).retire .ok) := hexec.trans (transfer_inRange ((inRange_iff_fits ..).2 hf))
    refine ⟨_, h, fun _ => ⟨hstatus, ?_, rfl, ?_⟩, absurd hf⟩
    · rw [State.retire_cmdcnt, hcount, BitVec.toNat_add]
      rfl
    · rintro rfl
      exact memKept_of_moved_zero h hm
  · have h : exec i s = .next (s.raiseFault .addrRange (encode i)) :=
      hexec.trans (transfer_outOfRange (mt (inRange_iff_fits ..).1 hf))
    exact ⟨_, h, fun hf' => absurd hf' hf, fun _ => faultEntered_raiseFault .addrRange ..⟩

/-! ### A store, then a load -/

@[simp] theorem State.memRead_retire (s : State) (c : ResultCode) (a n : Nat) :
    (s.retire c).memRead a n = s.memRead a n := rfl

theorem exec_str_inRange {addr : Addr} (h : addr.toNat ≤ 0xFE00) (rs : RingReg) (s : State) :
    exec (.str rs addr) s = .next ((s.memWrite addr.toNat (ser (s.ringReg rs)).toList).retire .ok) := by
  rw [exec, execStr]
  exact transfer_inRange (.inr (by omega))

theorem exec_ldr_inRange {addr : Addr} (h : addr.toNat ≤ 0xFE00) (rd : RingReg) (s : State) :
    exec (.ldr rd addr) s = .next ((s.setRing rd (deser (s.memRead addr.toNat 512))).retire .ok) := by
  rw [exec, execLdr]
  exact transfer_inRange (.inr (by omega))

theorem exec_sts_inRange {addr : Addr} (h : addr.toNat ≤ 0xFFE0) (ss : SeedReg) (s : State) :
    exec (.sts ss addr) s = .next ((s.memWrite addr.toNat (s.seedReg ss).toList).retire .ok) := by
  rw [exec, execSts]
  exact transfer_inRange (.inr (by omega))

theorem exec_lds_inRange {addr : Addr} (h : addr.toNat ≤ 0xFFE0) (sd : SeedReg) (s : State) :
    exec (.lds sd addr) s = .next ((s.setSeed sd (s.memRead addr.toNat 32)).retire .ok) := by
  rw [exec, execLds]
  exact transfer_inRange (.inr (by omega))

/-- Settles O43: the load reads the bytes the store wrote, and Deser undoes Ser. -/
theorem storeThenLoadReturnsWhatWasStored : Obligations.StoreThenLoadReturnsWhatWasStored := by
  intro r d k e addr s
  refine ⟨fun h => ⟨_, _, exec_str_inRange h r s, exec_ldr_inRange h d _, ?ring⟩,
    fun h => ⟨_, _, exec_sts_inRange h k s, exec_lds_inRange h e _, ?seed⟩⟩
  case ring =>
    rw [State.ringReg_retire, State.ringReg_setRing_same, State.memRead_retire, State.memRead_memWrite, deser_ser]
  case seed =>
    rw [State.seedReg_retire, State.seedReg_setSeed_same, State.memRead_retire, State.memRead_memWrite]

/-! ### The host's access -/

theorem State.readByte_memWrite_singleton (s : State) (a : Nat) (v : Byte) (p : Nat) :
    (s.memWrite a [v]).readByte p = if p = a then v else s.readByte p := by
  rw [readByte_memWrite]
  by_cases hp : p = a
  · subst hp
    simp
  · rw [dif_neg (by rw [List.length_singleton]; omega), if_neg hp]

/-- Settles O16: no action of the host on operand memory looks at STATUS. -/
theorem hostReachesOperandMemory : Obligations.HostReachesOperandMemory := by
  intro s a v q
  refine ⟨fun hp => ⟨_, (step_action hp).trans (perform_writeMem ..), ?written, fun p hne => ?others, rfl⟩,
    fun hp => (step_action hp).trans (perform_readMem ..)⟩
  case written => rw [State.readByte_memWrite_singleton, if_pos rfl]
  case others => rw [State.readByte_memWrite_singleton, if_neg hne, State.readByte_withPending]

end Sys2Proof.Machine
end

section
/-! The encoding family (30_encoding.md). The 27 commands whose operands are the fields of a word stand in one list, in
the order of the opcode table: the decoder picks one of them by the opcode, and a word is the encoding of the one it
picks if the format's zero bits are clear. Hence decoding inverts encoding (R75 to R79), and the words that match a row
under its mask are the ones that decode (R72). -/

namespace Sys2Proof

open Sys2Proof.Claims

/-! ### Fields as slices of the word -/

theorem bits_eq_toNat_extractLsb' (w : Word) (hi lo : Nat) :
    bits w hi lo = (w.extractLsb' lo (hi + 1 - lo)).toNat := by
  rw [bits, BitVec.extractLsb'_toNat, Nat.shiftRight_eq_div_pow]

theorem opField_eq_toNat_extractLsb' (w : Word) : opField w = (w.extractLsb' 24 8).toNat :=
  bits_eq_toNat_extractLsb' w 31 24

theorem finOfNat_bits_eq_iff {m : Nat} [NeZero m] {w : Word} (hi lo : Nat) {r : Fin m} (hm : 2 ^ (hi + 1 - lo) = m) :
    r.val = (w.extractLsb' lo (hi + 1 - lo)).toNat ↔ Fin.ofNat m (bits w hi lo) = r := by
  subst hm
  rw [eq_comm, Fin.ext_iff, Fin.val_ofNat, bits_eq_toNat_extractLsb', Nat.mod_eq_of_lt (BitVec.isLt _)]

theorem ofNat_bits_eq_iff {w : Word} (hi lo : Nat) {x : BitVec (hi + 1 - lo)} :
    x = w.extractLsb' lo (hi + 1 - lo) ↔ BitVec.ofNat (hi + 1 - lo) (bits w hi lo) = x := by
  rw [bits_eq_toNat_extractLsb', BitVec.ofNat_toNat, BitVec.setWidth_eq, eq_comm]

section Fields

variable {w : Word}

theorem regAt_20_iff {r : Fin 16} : RegAt w 20 r ↔ aField w = r := finOfNat_bits_eq_iff 23 20 rfl
theorem regAt_16_iff {r : Fin 16} : RegAt w 16 r ↔ bField w = r := finOfNat_bits_eq_iff 19 16 rfl
theorem regAt_12_iff {r : Fin 16} : RegAt w 12 r ↔ cField w = r := finOfNat_bits_eq_iff 15 12 rfl
theorem idx_iff {i : Fin 256} : i.val = (w.extractLsb' 12 8).toNat ↔ idxField w = i := finOfNat_bits_eq_iff 19 12 rfl
theorem addr_iff {a : Addr} : a = w.extractLsb' 0 16 ↔ addrField w = a := ofNat_bits_eq_iff 15 0
theorem len_iff {n : BitVec 8} : n = w.extractLsb' 16 8 ↔ lenField w = n := ofNat_bits_eq_iff 23 16
theorem imm_iff {v : BitVec 12} : v = w.extractLsb' 0 12 ↔ immField w = v := ofNat_bits_eq_iff 11 0
theorem dom_iff {d : Byte} : d = w.extractLsb' 0 8 ↔ domField w = d := ofNat_bits_eq_iff 7 0

end Fields

/-! ### The commands a word's fields give -/

/-- The 27 commands with the fields of `w` as operands, in the order of the opcode table. -/
def commandsAt (w : Word) : List Instr :=
  let a := aField w
  let b := bField w
  let c := cField w
  let addr := addrField w
  [.nop, .clrerr] ++
  [.radd a b c, .rsub a b c, .rmul a b c, .rred a, .req a b, .rgen a b (domField w)] ++
  [.ldr a addr, .str a addr, .lds a addr, .sts a addr, .rzero a, .rsetl a (idxField w) (immField w),
    .rgetl a (idxField w)] ++
  [.compress a b c, .decompress a b, .ksize, .sksize] ++
  [.sklds addr, .sksts addr, .sklda addr (lenField w), .sksta addr, .skldc addr, .skstc addr,
    .skldp addr (lenField w), .skstp addr]

theorem map_row_commandsAt (w : Word) : (commandsAt w).map Instr.row = opcodeTable := rfl

/-- The two ways to say that a command has the fields of `w` as operands: in the list, or by the statements' table. -/
theorem mem_commandsAt {w : Word} {i : Instr} : i ∈ commandsAt w ↔ OperandsOf w i := by
  cases i <;>
    simp only [OperandsOf, regAt_20_iff, regAt_16_iff, regAt_12_iff, idx_iff, addr_iff, len_iff, imm_iff, dom_iff] <;>
    simp [commandsAt, eq_comm]

theorem mem_opcodeTable_iff (w : Word) {row : Nat × CmdFormat} :
    row ∈ opcodeTable ↔ ∃ i ∈ commandsAt w, i.row = row := by
  rw [← map_row_commandsAt w, List.mem_map]

/-- The decoder takes the command of `commandsAt w` whose opcode the word has. -/
theorem decodeWord_of_mem {w : Word} :
    ∀ i ∈ commandsAt w, opField w = i.row.1 → decodeWord w = inFormat i.row.2 w i := by
  simp only [commandsAt, List.cons_append, List.nil_append, List.forall_mem_cons]
  exact ⟨decodeWord_nop, decodeWord_clrerr, decodeWord_radd, decodeWord_rsub, decodeWord_rmul, decodeWord_rred,
    decodeWord_req, decodeWord_rgen, decodeWord_ldr, decodeWord_str, decodeWord_lds, decodeWord_sts, decodeWord_rzero,
    decodeWord_rsetl, decodeWord_rgetl, decodeWord_compress, decodeWord_decompress, decodeWord_ksize,
    decodeWord_sksize, decodeWord_sklds, decodeWord_sksts, decodeWord_sklda, decodeWord_sksta, decodeWord_skldc,
    decodeWord_skstc, decodeWord_skldp, decodeWord_skstp, nofun⟩

theorem decodeWord_unassigned {w : Word} (h : opField w ∉ opcodeTable.map Prod.fst) :
    decodeWord w = .illegal .unassignedOpcode := by
  unfold decodeWord
  split
  case h_28 => rfl
  all_goals
    refine absurd ?_ h
    rw [‹opField w = _›]
    decide

/-! ### The word of a command -/

theorem opField_encode (i : Instr) : opField (encode i) = i.row.1 := by
  cases i with
  | rgen rd ss d => exact opField_packRegs rd ss 0 (d.isLt.trans (by decide)) (by decide)
  | ldr | str | lds | sts | sklds | sksts | sksta | skldc | skstc | skstp => exact opField_packAddr _ _ (by decide)
  | sklda | skldp => exact opField_packLen _ _ (by decide)
  | rsetl | rgetl => exact opField_packIdx _ _ _ (by decide)
  | _ => exact opField_packRegs _ _ _ (by decide) (by decide)

theorem zerosClear_encode (i : Instr) : i.row.2.zerosClear (encode i) = true := by
  cases i with
  | nop | clrerr | ksize | sksize => exact beq_iff_eq.2 bits_packRegs_z
  | radd a b c | rsub a b c | rmul a b c | compress a b c => exact beq_iff_eq.2 (bits_packRegs_r3 a b c)
  | req a b | decompress a b => exact beq_iff_eq.2 (bits_packRegs_r2 a b)
  | rred a | rzero a => exact beq_iff_eq.2 (bits_packRegs_r1 a)
  | rgen a b d => exact beq_iff_eq.2 (bits_packRegs_g a b d)
  | ldr a addr | str a addr | lds a addr | sts a addr => exact beq_iff_eq.2 (bits_packAddr_m a addr)
  | sklds addr | sksts addr | sksta addr | skldc addr | skstc addr | skstp addr =>
    exact beq_iff_eq.2 (bits_packAddr_a addr)
  | rgetl a idx => exact beq_iff_eq.2 (bits_packIdx_x a idx)
  | sklda | skldp | rsetl => rfl

theorem operandsOf_encode (i : Instr) : OperandsOf (encode i) i := by
  cases i with
  | nop | clrerr | ksize | sksize => trivial
  | radd a b c | rsub a b c | rmul a b c | compress a b c =>
    exact ⟨regAt_20_iff.2 (aField_packRegs a b c (by decide)), regAt_16_iff.2 (bField_packRegs a b c (by decide)),
      regAt_12_iff.2 (cField_packRegs a b c (by decide))⟩
  | req a b | decompress a b =>
    exact ⟨regAt_20_iff.2 (aField_packRegs a b 0 (by decide)), regAt_16_iff.2 (bField_packRegs a b 0 (by decide))⟩
  | rred a | rzero a => exact regAt_20_iff.2 (aField_packRegs a 0 0 (by decide))
  | rgen a b d =>
    have hd : d.toNat < 4096 := d.isLt.trans (by decide)
    exact ⟨regAt_20_iff.2 (aField_packRegs a b 0 hd), regAt_16_iff.2 (bField_packRegs a b 0 hd),
      dom_iff.2 (domField_packRegs a b 0 d)⟩
  | ldr a addr | str a addr | lds a addr | sts a addr =>
    exact ⟨regAt_20_iff.2 (aField_packAddr a addr), addr_iff.2 (addrField_packAddr a addr)⟩
  | sklds addr | sksts addr | sksta addr | skldc addr | skstc addr | skstp addr =>
    exact addr_iff.2 (addrField_packAddr 0 addr)
  | sklda addr len | skldp addr len =>
    exact ⟨addr_iff.2 (addrField_packLen addr len), len_iff.2 (lenField_packLen addr len)⟩
  | rsetl a idx imm =>
    exact ⟨regAt_20_iff.2 (aField_packIdx a idx imm), idx_iff.2 (idxField_packIdx a idx imm),
      imm_iff.2 (immField_packIdx a idx imm)⟩
  | rgetl a idx => exact ⟨regAt_20_iff.2 (aField_packIdx a idx 0), idx_iff.2 (idxField_packIdx a idx 0)⟩

/-- A word with a command's opcode, operands and zero bits is that command's word: its fields are all its bits. -/
theorem encode_of_mem {w : Word} :
    ∀ i ∈ commandsAt w, opField w = i.row.1 → i.row.2.zerosClear w = true → encode i = w := by
  have z {op} (h : opField w = op) (hz : CmdFormat.z.zerosClear w) : packRegs op 0 0 0 0 = w :=
    h ▸ packRegs_fields_z hz
  have r3 {op} (h : opField w = op) (hz : CmdFormat.r3.zerosClear w) :
      packRegs op (aField w) (bField w) (cField w) 0 = w := h ▸ packRegs_fields_r3 hz
  have r2 {op} (h : opField w = op) (hz : CmdFormat.r2.zerosClear w) :
      packRegs op (aField w) (bField w) 0 0 = w := h ▸ packRegs_fields_r2 hz
  have r1 {op} (h : opField w = op) (hz : CmdFormat.r1.zerosClear w) : packRegs op (aField w) 0 0 0 = w :=
    h ▸ packRegs_fields_r1 hz
  have m {op} (h : opField w = op) (hz : CmdFormat.m.zerosClear w) : packAddr op (aField w) (addrField w) = w :=
    h ▸ packAddr_fields_m hz
  have a {op} (h : opField w = op) (hz : CmdFormat.a.zerosClear w) : packAddr op 0 (addrField w) = w :=
    h ▸ packAddr_fields_a hz
  have l {op} (h : opField w = op) (_ : CmdFormat.l.zerosClear w) : packLen op (lenField w) (addrField w) = w :=
    h ▸ packLen_fields
  have g {op} (h : opField w = op) (hz : CmdFormat.g.zerosClear w) :
      packRegs op (aField w) (bField w) 0 (domField w).toNat = w := h ▸ packRegs_fields_g hz
  have i {op} (h : opField w = op) (_ : CmdFormat.i.zerosClear w) :
      packIdx op (aField w) (idxField w) (immField w) = w := h ▸ packIdx_fields_i
  have x {op} (h : opField w = op) (hz : CmdFormat.x.zerosClear w) : packIdx op (aField w) (idxField w) 0 = w :=
    h ▸ packIdx_fields_x hz
  simp only [commandsAt, List.cons_append, List.nil_append, List.forall_mem_cons]
  exact ⟨z, z, r3, r3, r3, r1, r2, g, m, m, m, m, r1, i, x, r3, r2, z, z, a, a, l, a, a, a, l, a, nofun⟩

/-- A word encodes at most one command: the one with its opcode and its fields, if the format's zero bits are clear. -/
theorem encode_eq_iff {w : Word} {i : Instr} :
    encode i = w ↔ opField w = i.row.1 ∧ OperandsOf w i ∧ i.row.2.zerosClear w = true := by
  constructor
  · rintro rfl
    exact ⟨opField_encode i, operandsOf_encode i, zerosClear_encode i⟩
  · rintro ⟨hop, hi, hz⟩
    exact encode_of_mem i (mem_commandsAt.2 hi) hop hz

/-- Decoding is the inverse of encoding on well-formed commands (30_encoding.md R75 to R79). -/
theorem decode_eq_some_iff_encode_eq {w : Word} {i : Instr} :
    decode w = some i ↔ i.wellFormed = true ∧ encode i = w := by
  rw [Machine.decode_eq_some]
  constructor
  · intro h
    by_cases hop : opField w ∈ opcodeTable.map Prod.fst
    · obtain ⟨row, hrow, hop⟩ := List.mem_map.1 hop
      obtain ⟨j, hj, rfl⟩ := (mem_opcodeTable_iff w).1 hrow
      rw [decodeWord_of_mem j hj hop.symm] at h
      obtain ⟨hz, hwf, rfl⟩ := inFormat_command.1 h
      exact ⟨hwf, encode_of_mem j hj hop.symm hz⟩
    · rw [decodeWord_unassigned hop] at h
      cases h
  · rintro ⟨hwf, he⟩
    obtain ⟨hop, hi, hz⟩ := encode_eq_iff.1 he
    rw [decodeWord_of_mem i (mem_commandsAt.2 hi) hop]
    exact inFormat_command.2 ⟨hz, hwf, rfl⟩

/-- Settles O1: the word of a command has its opcode, operands and zero bits, by which the decoder finds it. -/
theorem decodeOfEncodeIsTheCommand : Obligations.DecodeOfEncodeIsTheCommand :=
  fun _ hwf => decode_eq_some_iff_encode_eq.2 ⟨hwf, rfl⟩

/-- Settles O2: the opcode, the operands and the zero bits of a word that decodes are all its bits. -/
theorem encodeOfDecodeIsTheWord : Obligations.EncodeOfDecodeIsTheWord :=
  fun _ _ => decode_eq_some_iff_encode_eq.1

/-! ### The table's masks -/

/-- The bits a format marks as zero, the lowest and how many (30_encoding.md R76). -/
def CmdFormat.zeroBits : CmdFormat → Nat × Nat
  | .z => (0, 24)
  | .r3 | .x => (0, 12)
  | .r2 => (0, 16)
  | .r1 => (0, 20)
  | .g => (8, 8)
  | .m => (16, 4)
  | .a => (16, 8)
  | .l | .i => (0, 0)

theorem toNat_extractLsb'_eq_zero_iff {w : Word} {lo len : Nat} :
    (w.extractLsb' lo len).toNat = 0 ↔ ∀ k, lo ≤ k → k < lo + len → w.getLsbD k = false := by
  rw [show (0 : Nat) = (0#len).toNat from rfl, BitVec.toNat_inj]
  constructor
  · intro h k hlo hk
    have hbit := congrArg (·.getLsbD (k - lo)) h
    simpa [show k - lo < len by omega, show lo + (k - lo) = k by omega] using hbit
  · intro h
    apply BitVec.eq_of_getLsbD_eq
    intro k hk
    simp [hk, h (lo + k) (by omega) (by omega)]

theorem CmdFormat.zerosClear_iff {f : CmdFormat} {w : Word} :
    f.zerosClear w = true ↔ ∀ k, f.zeroBits.1 ≤ k → k < f.zeroBits.1 + f.zeroBits.2 → w.getLsbD k = false := by
  cases f with
  | l | i => simp [zerosClear, zeroBits]
  | _ => rw [zerosClear, beq_iff_eq, bits_eq_toNat_extractLsb']; exact toNat_extractLsb'_eq_zero_iff

/-- The mask selects the opcode and the format's zero bits, and no others. -/
theorem CmdFormat.getLsbD_mask (f : CmdFormat) :
    ∀ k < 32, f.mask.getLsbD k = decide (24 ≤ k ∨ f.zeroBits.1 ≤ k ∧ k < f.zeroBits.1 + f.zeroBits.2) := by
  cases f <;> decide

theorem CmdFormat.zeroBits_below_opcode (f : CmdFormat) : f.zeroBits.1 + f.zeroBits.2 ≤ 24 := by
  cases f <;> decide

theorem getLsbD_matchValue (op : Nat) {k : Nat} (hk : k < 32) :
    (matchValue op).getLsbD k = (decide (24 ≤ k) && op.testBit (k - 24)) := by
  rw [matchValue, BitVec.getLsbD_ofNat, Nat.testBit_mul_two_pow]
  simp [hk]

theorem opField_eq_iff {w : Word} {op : Nat} (hop : op < 256) :
    opField w = op ↔ ∀ k, 24 ≤ k → k < 32 → w.getLsbD k = op.testBit (k - 24) := by
  rw [opField_eq_toNat_extractLsb']
  constructor
  · rintro rfl k hlo hk
    rw [BitVec.testBit_toNat, BitVec.getLsbD_extractLsb']
    simp [show k - 24 < 8 by omega, show 24 + (k - 24) = k by omega]
  · intro h
    have hw : (BitVec.ofNat 8 op).toNat = op := by rw [BitVec.toNat_ofNat]; omega
    rw [← hw, BitVec.toNat_inj]
    apply BitVec.eq_of_getLsbD_eq
    intro k hk
    rw [BitVec.getLsbD_extractLsb', BitVec.getLsbD_ofNat, h (24 + k) (by omega) (by omega)]
    simp

/-- Matching a row of the table under its mask is having its opcode and its zero bits clear (30_encoding.md R76). -/
theorem and_mask_eq_matchValue_iff {f : CmdFormat} {w : Word} {op : Nat} (hop : op < 256) :
    w &&& f.mask = matchValue op ↔ opField w = op ∧ f.zerosClear w = true := by
  have hbelow := f.zeroBits_below_opcode
  rw [opField_eq_iff hop, CmdFormat.zerosClear_iff]
  have hbit {k : Nat} (hk : k < 32) : (w &&& f.mask).getLsbD k =
      (w.getLsbD k && decide (24 ≤ k ∨ f.zeroBits.1 ≤ k ∧ k < f.zeroBits.1 + f.zeroBits.2)) := by
    rw [BitVec.getLsbD_and, f.getLsbD_mask k hk]
  constructor
  · intro h
    refine ⟨fun k hlo hk => ?_, fun k hlo hk => ?_⟩
    · simpa [h, getLsbD_matchValue op hk, hlo] using (hbit hk).symm
    · have hk32 : k < 32 := by omega
      simpa [h, getLsbD_matchValue op hk32, hlo, hk, show ¬ 24 ≤ k by omega] using (hbit hk32).symm
  · rintro ⟨hop, hzero⟩
    apply BitVec.eq_of_getLsbD_eq
    intro k hk
    rw [hbit hk, getLsbD_matchValue op hk]
    by_cases hhi : 24 ≤ k
    · simp [hhi, hop k hhi hk]
    · by_cases hz : f.zeroBits.1 ≤ k ∧ k < f.zeroBits.1 + f.zeroBits.2
      · obtain ⟨hlo, hlt⟩ := hz
        simp [hhi, hlo, hlt, hzero k hlo hlt]
      · simp [hhi, hz]

theorem opcode_lt {row : Nat × CmdFormat} (h : row ∈ opcodeTable) : row.1 < 256 := by
  revert row
  decide

/-- The one check the operands' types do not make, in bits of the word. -/
theorem wellFormed_iff {w : Word} {i : Instr} (hop : opField w = i.row.1) (hi : OperandsOf w i) :
    i.wellFormed = true ↔ ¬ (w.extractLsb' 24 8 = 0x31#8 ∧ w.extractLsb' 20 4 = w.extractLsb' 16 4) := by
  rw [opField_eq_toNat_extractLsb'] at hop
  rw [← BitVec.toNat_inj, hop]
  cases i with
  | decompress x y =>
    obtain ⟨hx, hy⟩ := hi
    calc (x != y) = true ↔ x.val ≠ y.val := by rw [bne_iff_ne, Ne, Fin.ext_iff]
      _ ↔ ¬ w.extractLsb' 20 4 = w.extractLsb' 16 4 := by rw [hx, hy, Ne, BitVec.toNat_inj]
      _ ↔ _ := by simp [Instr.row]
  | _ => simp [Instr.wellFormed, Instr.row]

/-- The words the table accepts are the words of the well-formed commands. -/
theorem legal_iff {w : Word} : Legal w ↔ ∃ i : Instr, i.wellFormed = true ∧ encode i = w := by
  constructor
  · rintro ⟨⟨row, hrow, hmatch⟩, hne⟩
    obtain ⟨hop, hz⟩ := (and_mask_eq_matchValue_iff (opcode_lt hrow)).1 hmatch
    obtain ⟨i, hi, rfl⟩ := (mem_opcodeTable_iff w).1 hrow
    exact ⟨i, (wellFormed_iff hop (mem_commandsAt.1 hi)).2 hne, encode_of_mem i hi hop hz⟩
  · rintro ⟨i, hwf, he⟩
    obtain ⟨hop, hi, hz⟩ := encode_eq_iff.1 he
    have hrow : i.row ∈ opcodeTable := (mem_opcodeTable_iff w).2 ⟨i, mem_commandsAt.2 hi, rfl⟩
    have hmatch := (and_mask_eq_matchValue_iff (opcode_lt hrow)).2 ⟨hop, hz⟩
    exact ⟨⟨i.row, hrow, hmatch⟩, (wellFormed_iff hop hi).1 hwf⟩

/-- Settles O3: the table's words are the commands' words, and a command's word has its row and its operands. -/
theorem decodeFollowsTheTable : Obligations.DecodeFollowsTheTable := by
  refine fun w => ⟨fun h => ?accepted, fun h => ?refused⟩
  case accepted =>
    obtain ⟨i, hwf, he⟩ := legal_iff.1 h
    obtain ⟨hop, hi, -⟩ := encode_eq_iff.1 he
    exact ⟨i, decode_eq_some_iff_encode_eq.2 ⟨hwf, he⟩, by rw [← hop, opField_eq_toNat_extractLsb'], hi⟩
  case refused =>
    exact Option.eq_none_iff_forall_ne_some.2 fun i hd => h (legal_iff.2 ⟨i, decode_eq_some_iff_encode_eq.1 hd⟩)

end Sys2Proof

namespace Sys2Proof.Machine

open Sys2Proof Sys2Proof.Claims

/-! ### The end of a command -/

/-- Settles O7: a fault enters with the command's own word, and a retirement writes no fault register. -/
theorem commandRetiresOrFaults : Obligations.CommandRetiresOrFaults := by
  intro i s
  obtain ⟨t, ht, ho⟩ := exec_outcome i s
  refine ⟨t, ht, ?_⟩
  cases ho with
  | fault cause =>
    exact .inr ⟨cause.code.toNat, by cases cause <;> simp, faultEntered_raiseFault cause (encode i) s⟩
  | retired he hc =>
    refine .inl ⟨?count, ?result, he.status, he.fcause, he.fcmd⟩
    case count => rw [State.retire_cmdcnt, he.cmdcnt, BitVec.toNat_add]; rfl
    case result => rcases hc with rfl | ⟨rfl | rfl, -⟩ <;> simp

/-! ### RONE -/

/-- A CMD write of a well-formed command's word executes that command. -/
theorem step_of_pending_command {i : Instr} {s : State} {q : List HostAction} (hwf : i.wellFormed = true)
    (hf : s.faulted = false) (hp : s.host.pending = .writeCtrl 0x00 (encode i) :: q) :
    step s = exec i (s.withPending q) := by
  rw [step_action hp, perform_writeCtrl, writeCtrl_cmd]
  exact issue_command hf (decode_eq_some.1 (decode_eq_some_iff_encode_eq.2 ⟨hwf, rfl⟩))

theorem run_command {i : Instr} {k : Nat} {s t : State} {q : List HostAction} (hwf : i.wellFormed = true)
    (hf : s.faulted = false) (hp : s.host.pending = .writeCtrl 0x00 (encode i) :: q)
    (hx : exec i (s.withPending q) = .next t) : Host.Core.run core (k + 1) s = Host.Core.run core k t :=
  run_succ ((step_of_pending_command hwf hf hp).trans hx)

theorem exec_rzero (rd : RingReg) (s : State) :
    exec (.rzero rd) s = .next ((s.setRing rd (.tab Config.N fun _ => 0)).retire .ok) := rfl

theorem exec_rsetl (rd : RingReg) (idx : Fin 256) (imm : BitVec 12) (s : State) :
    exec (.rsetl rd idx imm) s = .next ((s.setRing rd ((s.ringReg rd).set idx (laneOfImm imm))).retire .ok) := rfl

/-- Settles O44: RZERO clears all lanes, then RSETL sets lane 0 to 1. -/
theorem roneBuildsTheIdentity : Obligations.RoneBuildsTheIdentity := by
  intro rd s q hf hp
  refine ⟨_, (run_command (i := .rzero rd) rfl hf hp (exec_rzero ..)).trans
    (run_command (k := 0) (i := .rsetl rd 0 1) (q := q) rfl (by exact hf) rfl (exec_rsetl ..)),
    ?lanes, ?count, rfl, ?kept⟩
  case lanes =>
    intro i hi
    rw [lane, State.ringReg_retire, State.ringReg_setRing_same, State.ringReg_withPending, State.ringReg_retire,
      State.ringReg_setRing_same, Vec.nth_set _ _ _ hi, Vec.nth_tab _ hi]
    obtain rfl | hne := eq_or_ne i 0
    · simp
    · simp [hne]
  case count =>
    simp only [State.retire_cmdcnt, State.setRing_cmdcnt, State.withPending_cmdcnt]
    bv_omega
  case kept =>
    refine ⟨fun r hr => ?_, fun _ _ => rfl, rfl, rfl, fun _ => rfl⟩
    simp [State.ringReg_setRing, mt List.mem_singleton.2 hr]

/-! ### The assembler -/

/-- What the assembler answers, if it answers, is well-formed commands. -/
def GivesWellFormed (o : Option (List Instr)) : Prop := ∀ is, o = some is → ∀ i ∈ is, i.wellFormed = true

namespace GivesWellFormed

theorem refusal : GivesWellFormed none := nofun

theorem commands {is : List Instr} (h : ∀ i ∈ is, i.wellFormed = true) : GivesWellFormed (some is) := by
  rintro _ ⟨⟩
  exact h

theorem command {i : Instr} (h : i.wellFormed = true) : GivesWellFormed (some [i]) :=
  commands (List.forall_mem_singleton.2 h)

theorem operand {α : Type} {o : Option α} {f : α → Option (List Instr)} (h : ∀ a, GivesWellFormed (f a)) :
    GivesWellFormed (o >>= f) := by
  cases o with
  | none => exact refusal
  | some a => exact h a

/-- The check DECOMPRESS gets. -/
theorem checked (i : Instr) : GivesWellFormed (if i.wellFormed then some [i] else none) := by
  split
  · exact command ‹_›
  · exact refusal

end GivesWellFormed

theorem rone_wellFormed (rd : RingReg) : ∀ i ∈ Instr.rone rd, i.wellFormed = true := by
  simp [Instr.rone, Instr.wellFormed]

theorem commandOf_givesWellFormed (mnemonic : String) (ops : List Text) : GivesWellFormed (commandOf mnemonic ops) := by
  unfold commandOf
  split
  case h_17 => exact .operand fun _ => .operand fun _ => .checked _
  case h_28 => exact .operand fun _ => .commands (rone_wellFormed _)
  case h_29 => exact .refusal
  case h_1 | h_2 | h_18 | h_19 => exact .command rfl
  case h_6 | h_13 | h_20 | h_21 | h_23 | h_24 | h_25 | h_27 => exact .operand fun _ => .command rfl
  case h_7 | h_9 | h_10 | h_11 | h_12 | h_15 | h_22 | h_26 => exact .operand fun _ => .operand fun _ => .command rfl
  case h_3 | h_4 | h_5 | h_8 | h_14 | h_16 =>
    exact .operand fun _ => .operand fun _ => .operand fun _ => .command rfl

/-- Settles O56: a line's commands are those of its mnemonic, and only DECOMPRESS needs a check. -/
theorem assembledCommandsAreWellFormed : Obligations.AssembledCommandsAreWellFormed := by
  intro line
  rw [← GivesWellFormed, assembleLine]
  split
  · exact .commands nofun
  · exact commandOf_givesWellFormed _ _

end Sys2Proof.Machine
end

section
/-! The ring arithmetic family (40_ring_arith.md). Every command of it but REQ writes one ring register and retires, so
retirement, the frame and the lanes read back are said once for such a state; what is left of each statement is an
equation on residues, and for RMUL one on sums over pairs of indices. -/

namespace Sys2Proof.Machine

open Sys2Proof Sys2Proof.Claims

/-! ### The words -/

theorem toNat_packRegs {op low : Nat} (a b c : Fin 16) (hop : op < 256) (hlow : low < 4096) :
    (packRegs op a b c low).toNat = op * 2 ^ 24 + a * 2 ^ 20 + b * 2 ^ 16 + c * 2 ^ 12 + low := by
  rw [packRegs, BitVec.toNat_ofNat]
  omega

/-! ### What the commands answer -/

theorem exec_rred (rd : RingReg) (s : State) :
    exec (.rred rd) s = .next ((s.setRing rd (ringReduce (s.ringReg rd))).retire .ok) := rfl

theorem exec_rgen (rd : RingReg) (ss : SeedReg) (domain : Byte) (s : State) :
    exec (.rgen rd ss domain) s = .next ((s.setRing rd (gen (s.seedReg ss) domain)).retire .ok) := rfl

theorem exec_req (rs1 rs2 : RingReg) (s : State) : exec (.req rs1 rs2) s =
    .next ((s.setRval (if s.ringReg rs1 = s.ringReg rs2 then 1 else 0)).retire .ok) := rfl

theorem exec_compress (ra rb : RingReg) (ss : SeedReg) (s : State) : exec (.compress ra rb ss) s =
    .next ((s.setSketch
      { seed := s.seedReg ss, alen := 128, anchor := decimate (s.ringReg rb) s.sk.anchor, chk := chkOf (s.ringReg rb),
        plen := 128, parity := parityOf (s.ringReg rb) s.sk.parity }).retire .ok) := rfl

/-! ### A command that retires with OK -/

theorem CommandEffect.retired_ok {i : Instr} {s u : State} (he : CommandEffect i s u) (hi : i ≠ .clrerr) :
    Retired 0 s (u.retire .ok) where
  result := rfl
  sticky k _ := by
    have hsticky : u.esticky = s.esticky := he.esticky_eq_or.resolve_right fun h => hi h.1
    simp [hsticky]
  count := by rw [State.retire_cmdcnt, he.cmdcnt, BitVec.toNat_add]; rfl
  status := he.status
  fcause := he.fcause
  fcmd := he.fcmd
  host := he.host
  epoch := he.epoch

/-- RZERO stands for any command that writes R[rd]: retirement does not ask what was written. -/
theorem retired_setRing (rd : RingReg) (x : RingElem) (s : State) : Retired 0 s ((s.setRing rd x).retire .ok) :=
  CommandEffect.retired_ok (i := .rzero rd) (.ring (.head _)) nofun

theorem onlyRing_setRing (rd : RingReg) (x : RingElem) (s : State) : OnlyRing rd s ((s.setRing rd x).retire .ok) :=
  ⟨fun r hr => by rw [State.ringReg_retire, State.ringReg_setRing, if_neg (mt List.mem_singleton.2 hr)],
    fun _ _ => rfl, rfl, rfl, fun _ => rfl⟩

theorem onlyRval_setRval (v : Word) (s : State) : OnlyRval s ((s.setRval v).retire .ok) :=
  ⟨fun _ _ => rfl, fun _ _ => rfl, rfl, fun _ => rfl⟩

theorem ringReg_setRing_retire (rd : RingReg) (x : RingElem) (s : State) (c : ResultCode) :
    ((s.setRing rd x).retire c).ringReg rd = x := by
  rw [State.ringReg_retire, State.ringReg_setRing_same]

/-- A lane of the register just written. -/
theorem lane_setRing_retire (rd : RingReg) (x : RingElem) (s : State) (c : ResultCode) (i : Nat) :
    lane ((s.setRing rd x).retire c) rd i = coeff x i := by
  rw [lane, ringReg_setRing_retire, coeff]

/-! ### Coefficients -/

theorem coeff_ringAdd (x y : RingElem) {i : Nat} (hi : i < 256) :
    coeff (ringAdd x y) i = (coeff x i + coeff y i) % 3329 := by
  rw [coeff, nth_ringAdd x y hi, toNat_laneOfResidue, ← Nat.cast_add]
  rfl

theorem coeff_ringSub (x y : RingElem) {i : Nat} (hi : i < 256) :
    (coeff (ringSub x y) i : Int) = ((coeff x i : Int) - coeff y i) % 3329 := by
  rw [coeff, nth_ringSub x y hi, int_laneOfResidue]

theorem coeff_ringMul (x y : RingElem) {i : Nat} (hi : i < 256) :
    (coeff (ringMul x y) i : Int) = ((conv x y i : Int) - conv x y (i + 256)) % 3329 := by
  rw [coeff, nth_ringMul x y hi, int_laneOfResidue]

theorem coeff_ringReduce (x : RingElem) {i : Nat} (hi : i < 256) : coeff (ringReduce x) i = coeff x i % 3329 := by
  rw [coeff, nth_ringReduce x hi, toNat_laneOfResidue]
  rfl

theorem coeff_gen (seed : Seed) (domain : Byte) {i : Nat} (hi : i < 256) :
    coeff (gen seed domain) i = Config.GenWide seed domain i % 3329 := by
  rw [coeff, nth_gen seed domain hi, toNat_laneOfResidue]
  rfl

theorem ext_coeff {x y : RingElem} (h : ∀ i < 256, coeff x i = coeff y i) : x = y :=
  Vec.ext_nth fun i hi => BitVec.eq_of_toNat_eq (h i hi)

/-! ### Normalised elements -/

theorem normalised_of_residues {x : RingElem} {v : Nat → Int} (h : ∀ i < 256, x.nth i = laneOfResidue (v i)) :
    Normalised x := by
  intro i hi
  rw [h i hi]
  exact laneOfResidue_lt (v i)

/-- Reduction changes nothing in a normalised element. -/
theorem eq_of_normalised {x y : RingElem} (hx : Normalised x) (h : ∀ i < 256, coeff y i = coeff x i % 3329) : y = x :=
  ext_coeff fun i hi => (h i hi).trans (Nat.mod_eq_of_lt (hx i hi))

/-! ### Convolution -/

/-- For each `j` at most one `m` has `j + m = k`, so the model's single sum is the sum over pairs. -/
theorem conv_eq_sum_pairs (x y : RingElem) (k : Nat) :
    conv x y k = ∑ j ∈ Finset.range 256, ∑ m ∈ Finset.range 256, if j + m = k then coeff x j * coeff y m else 0 := by
  rw [conv, sumTo_eq_sum]
  refine Finset.sum_congr rfl fun j _ => ?_
  by_cases hjk : j ≤ k ∧ k - j < 256
  · obtain ⟨hj, hm⟩ := hjk
    rw [if_pos ⟨hj, hm⟩, Finset.sum_eq_single_of_mem (k - j) (Finset.mem_range.2 hm) fun m _ hne => if_neg (by omega),
      if_pos (by omega)]
  · rw [if_neg hjk]
    refine (Finset.sum_eq_zero fun m hm => if_neg ?_).symm
    rw [Finset.mem_range] at hm
    omega

theorem conv_comm (x y : RingElem) (k : Nat) : conv x y k = conv y x k := by
  rw [conv_eq_sum_pairs, conv_eq_sum_pairs, Finset.sum_comm]
  simp only [Nat.add_comm, Nat.mul_comm]

/-- Against the identity element only the pair `(k, 0)` counts. -/
theorem conv_identity {e : RingElem} (he : ∀ i < 256, coeff e i = if i = 0 then 1 else 0) (x : RingElem) (k : Nat) :
    conv x e k = if k < 256 then coeff x k else 0 := by
  have hrow : ∀ j ∈ Finset.range 256,
      (∑ m ∈ Finset.range 256, if j + m = k then coeff x j * coeff e m else 0) = if k = j then coeff x j else 0 := by
    intro j _
    rw [Finset.sum_eq_single_of_mem 0 (Finset.mem_range.2 (by decide)) fun m hm hne => ?others, he 0 (by decide)]
    · simp [eq_comm]
    case others => simp [he m (Finset.mem_range.1 hm), hne]
  rw [conv_eq_sum_pairs, Finset.sum_congr rfl hrow, Finset.sum_ite_eq]
  simp

theorem ringMul_comm (x y : RingElem) : ringMul x y = ringMul y x := by
  simp only [ringMul, conv_comm x y]

theorem ringMul_identity {x e : RingElem} (he : ∀ i < 256, coeff e i = if i = 0 then 1 else 0) (hx : Normalised x) :
    ringMul x e = x := by
  refine eq_of_normalised hx fun i hi => ?_
  have h := coeff_ringMul x e hi
  rw [conv_identity he, conv_identity he, if_pos hi, if_neg (by omega)] at h
  omega

/-! ### The statements: one command -/

/-- Settles O26, by the residue of a sum. -/
theorem raddAddsModuloQ : Obligations.RaddAddsModuloQ := by
  intro rd rs1 rs2 s
  refine ⟨by simp [encode, toNat_packRegs], _, exec_radd rd rs1 rs2 s, retired_setRing .., fun i hi => ?_,
    onlyRing_setRing ..⟩
  exact (lane_setRing_retire ..).trans (coeff_ringAdd _ _ hi)

/-- Settles O27, by the residue of a difference. -/
theorem rsubSubtractsModuloQ : Obligations.RsubSubtractsModuloQ := by
  intro rd rs1 rs2 s
  refine ⟨by simp [encode, toNat_packRegs], _, exec_rsub rd rs1 rs2 s, retired_setRing .., fun i hi => ?_,
    onlyRing_setRing ..⟩
  rw [lane_setRing_retire]
  exact coeff_ringSub _ _ hi

/-- Settles O28: the model's `conv` is the sum over pairs. -/
theorem rmulConvolvesModuloQ : Obligations.RmulConvolvesModuloQ := by
  intro rd rs1 rs2 s
  refine ⟨by simp [encode, toNat_packRegs], _, exec_rmul rd rs1 rs2 s, retired_setRing .., fun i hi => ?_,
    onlyRing_setRing ..⟩
  rw [lane_setRing_retire, coeff_ringMul _ _ hi, conv_eq_sum_pairs, conv_eq_sum_pairs]
  push_cast
  rfl

/-- Settles O29: a residue below Q is itself. -/
theorem rredReducesModuloQ : Obligations.RredReducesModuloQ := by
  intro rd s
  refine ⟨by simp [encode, toNat_packRegs], _, exec_rred rd s, retired_setRing .., fun i hi => ?lanes, fun hn => ?kept,
    onlyRing_setRing ..⟩
  case lanes => exact (lane_setRing_retire ..).trans (coeff_ringReduce _ hi)
  case kept =>
    rw [ringReg_setRing_retire]
    exact eq_of_normalised hn fun i hi => coeff_ringReduce _ hi

/-- Settles O30: two elements are equal exactly when their stored lanes are. -/
theorem reqComparesStoredLanes : Obligations.ReqComparesStoredLanes := by
  intro rs1 rs2 s
  refine ⟨by simp [encode, toNat_packRegs], _, exec_req rs1 rs2 s,
    CommandEffect.retired_ok (i := .req rs1 rs2) (.rval rfl (toNat_truthValue_lt _)) nofun, ?equal, ?different,
    onlyRval_setRval ..⟩ <;> rw [State.retire_rval, State.setRval_rval]
  case equal =>
    intro h
    rw [if_pos (ext_coeff h)]
    rfl
  case different =>
    rintro ⟨i, _, hne⟩
    rw [if_neg fun heq => hne (congrArg (coeff · i) heq)]
    rfl

/-- Settles O31: nothing is asked of GenWide but its value. -/
theorem rgenReducesWideValues : Obligations.RgenReducesWideValues := by
  intro rd ss domain s
  have hlow : domain.toNat < 4096 := domain.isLt.trans (by decide)
  refine ⟨by simp [encode, toNat_packRegs, hlow], _, exec_rgen rd ss domain s, retired_setRing .., fun i hi => ?_,
    onlyRing_setRing ..⟩
  exact (lane_setRing_retire ..).trans (coeff_gen _ _ hi)

/-! ### The statements: laws -/

theorem normalised_setRing_retire {rd : RingReg} {x : RingElem} {v : Nat → Int}
    (h : ∀ i < 256, x.nth i = laneOfResidue (v i)) (s : State) :
    Normalised (((s.setRing rd x).retire .ok).ringReg rd) := by
  rw [ringReg_setRing_retire]
  exact normalised_of_residues h

/-- Settles O32: every lane the five commands write is a residue. -/
theorem computedRegistersAreNormalised : Obligations.ComputedRegistersAreNormalised := by
  intro rd rs1 rs2 ss domain s
  simp only [List.forall_mem_cons]
  exact ⟨⟨_, exec_radd rd rs1 rs2 s, normalised_setRing_retire (fun i hi => nth_ringAdd _ _ hi) s⟩,
    ⟨_, exec_rsub rd rs1 rs2 s, normalised_setRing_retire (fun i hi => nth_ringSub _ _ hi) s⟩,
    ⟨_, exec_rmul rd rs1 rs2 s, normalised_setRing_retire (fun i hi => nth_ringMul _ _ hi) s⟩,
    ⟨_, exec_rred rd s, normalised_setRing_retire (fun i hi => nth_ringReduce _ hi) s⟩,
    ⟨_, exec_rgen rd ss domain s, normalised_setRing_retire (fun i hi => nth_gen _ _ hi) s⟩, nofun⟩

theorem coeff_ringSub_ringAdd (x y : RingElem) {i : Nat} (hi : i < 256) :
    coeff (ringSub (ringAdd x y) y) i = coeff x i % 3329 := by
  have h := coeff_ringSub (ringAdd x y) y hi
  rw [coeff_ringAdd x y hi] at h
  omega

theorem coeff_ringSub_self (x : RingElem) {i : Nat} (hi : i < 256) : coeff (ringSub x x) i = 0 := by
  have h := coeff_ringSub x x hi
  omega

/-- Settles O33: R[rb] is still the operand added, unless the sum was written over it. -/
theorem subtractionUndoesAddition : Obligations.SubtractionUndoesAddition := by
  intro rt ru ra rb s
  have hrb : rt ≠ rb → ((s.setRing rt (ringAdd (s.ringReg ra) (s.ringReg rb))).retire .ok).ringReg rb = s.ringReg rb :=
    fun hne => (onlyRing_setRing rt _ s).1 rb (mt List.mem_singleton.1 hne.symm)
  refine ⟨_, _, exec_radd rt ra rb s, exec_rsub ru rt rb _, fun hne i hi => ?lanes, fun hne hn => ?undone,
    fun heq i hi => ?overwritten⟩
  case lanes =>
    rw [lane_setRing_retire, ringReg_setRing_retire, hrb hne]
    exact coeff_ringSub_ringAdd _ _ hi
  case undone =>
    rw [ringReg_setRing_retire, ringReg_setRing_retire, hrb hne]
    exact eq_of_normalised hn fun i hi => coeff_ringSub_ringAdd _ _ hi
  case overwritten =>
    subst heq
    exact (lane_setRing_retire ..).trans (coeff_ringSub_self _ hi)

/-- Settles O34: `conv` commutes, and its upper half is 0 against the identity element. -/
theorem productHasIdentityAndCommutes : Obligations.ProductHasIdentityAndCommutes := by
  refine fun rt ra rb s => ⟨⟨_, _, exec_rmul rt ra rb s, exec_rmul rt rb ra s, ?commutes⟩,
    fun re he hn => ⟨_, exec_rmul rt ra re s, ?identity⟩⟩
  case commutes => rw [ringMul_comm]
  case identity =>
    rw [ringReg_setRing_retire]
    exact ringMul_identity he hn

/-- Settles O22: each command's answer names its sources and no other part of the state; the entries of the sketch
buffers that COMPRESS keeps lie beyond the sequences. -/
theorem ringCommandsDependOnTheirSourcesOnly : Obligations.RingCommandsDependOnTheirSourcesOnly := by
  refine fun s s' => ⟨fun d x y e hx hy => ?binary, fun x y hx hy => ?unary, fun d e k m dom hk => ?rgen,
    fun ra ra' rb ss hb hs => ?compress⟩
  case binary =>
    refine ⟨_, _, _, _, _, _, exec_radd .., exec_radd .., ?_, exec_rsub .., exec_rsub .., ?_, exec_rmul ..,
      exec_rmul .., ?_⟩ <;>
      rw [ringReg_setRing_retire, ringReg_setRing_retire, hx, hy]
  case unary =>
    refine ⟨_, _, _, _, exec_rred .., exec_rred .., ?reduced, exec_req .., exec_req .., ?compared⟩
    case reduced => rw [ringReg_setRing_retire, ringReg_setRing_retire, hx]
    case compared => rw [State.retire_rval, State.retire_rval, State.setRval_rval, State.setRval_rval, hx, hy]
  case rgen =>
    refine ⟨_, _, exec_rgen .., exec_rgen .., ?_⟩
    rw [ringReg_setRing_retire, ringReg_setRing_retire, hk]
  case compress =>
    refine ⟨_, _, exec_compress .., exec_compress .., hs, rfl, rfl, congrArg chkOf hb, fun i hi => ?_⟩
    have hcap : i < 256 := by omega
    simp only [State.retire_sk, State.setSketch_sk, nth_decimate _ _ hcap, nth_parityOf _ _ hcap, if_pos hi, hb,
      and_self]

end Sys2Proof.Machine
end

section
/-! The data movement family (41_data_movement.md). The four transfers share R120's fault and differ in what they move:
a load tabulates the bytes read, and a store's bytes read back are the entries of the sequence stored. RZERO, RSETL and
RGETL are read off the register they write. -/

namespace Sys2Proof.Machine

open Sys2Proof Sys2Proof.Claims

/-! ### The words -/

theorem toNat_packAddr {op : Nat} (a : Fin 16) (addr : Addr) (hop : op < 256) :
    (packAddr op a addr).toNat = op * 2 ^ 24 + a * 2 ^ 20 + addr.toNat := by
  have := addr.isLt
  rw [packAddr, BitVec.toNat_ofNat]
  omega

theorem toNat_packIdx {op : Nat} (a : Fin 16) (idx : Fin 256) (imm : BitVec 12) (hop : op < 256) :
    (packIdx op a idx imm).toNat = op * 2 ^ 24 + a * 2 ^ 20 + idx * 2 ^ 12 + imm.toNat := by
  have := imm.isLt
  rw [packIdx, BitVec.toNat_ofNat]
  omega

/-! ### The fault and RGETL's answer -/

theorem exec_outOfRange {i : Instr} {s : State} {a n : Nat} (hm : moved s i = some (a, n)) (hn : 0 < n)
    (h : 65536 < a + n) : ∃ t, exec i s = .next t ∧ FaultEntered 2 (encode i) s t := by
  obtain ⟨t, ht, -, hfault⟩ := rangeFaultExactlyWhenOutOfRange i s a n hm
  exact ⟨t, ht, hfault fun hf => by unfold Fits at hf; omega⟩

theorem exec_rgetl (rs : RingReg) (idx : Fin 256) (s : State) :
    exec (.rgetl rs idx) s = .next ((s.setRval (wordOfLane ((s.ringReg rs).get idx))).retire .ok) := rfl

/-! ### Loads -/

theorem coeff_deser_memRead (s : State) (a : Nat) {i : Nat} (hi : i < 256) :
    coeff (deser (s.memRead a 512)) i = byteAt s (a + 2 * i) + 256 * byteAt s (a + 2 * i + 1) := by
  rw [coeff, nth_deser _ hi, State.nth_memRead _ _ _ (by omega), State.nth_memRead _ _ _ (by omega), toNat_laneOf]
  rfl

/-! ### Stores -/

/-- The bytes of a sequence just stored. -/
theorem readByte_memWrite_retire {n : Nat} (s : State) (a : Nat) (v : Vec Byte n) (c : ResultCode) {j : Nat}
    (hj : j < n) : ((s.memWrite a v.toList).retire c).readByte (a + j) = v.nth j := by
  rw [State.readByte_retire, ← State.nth_memRead _ a n hj, State.memRead_memWrite]

theorem onlyBytes_memWrite {n : Nat} (a : Nat) (v : Vec Byte n) (s : State) :
    OnlyBytes a n s ((s.memWrite a v.toList).retire .ok) := by
  refine ⟨fun _ _ => rfl, fun _ _ => rfl, rfl, rfl, fun p hp => ?_⟩
  rw [State.readByte_retire, State.readByte_memWrite, dif_neg (by rw [v.length_eq]; omega)]

/-! ### The statements: transfers -/

/-- Settles O36: Deser of the bytes read, lane by lane. -/
theorem ldrLoadsLittleEndianLanes : Obligations.LdrLoadsLittleEndianLanes := by
  intro rd addr s
  refine ⟨by simp [encode, toNat_packAddr], fun h => ⟨_, exec_ldr_inRange h rd s, retired_setRing .., fun i hi => ?_,
    onlyRing_setRing ..⟩, fun h => exec_outOfRange rfl (by decide) (by omega)⟩
  exact (lane_setRing_retire ..).trans (coeff_deser_memRead s _ hi)

/-- Settles O37: the bytes stored are Ser of the register, two for each lane. -/
theorem strStoresLittleEndianLanes : Obligations.StrStoresLittleEndianLanes := by
  intro rs addr s
  refine ⟨by simp [encode, toNat_packAddr], fun h => ⟨_, exec_str_inRange h rs s,
    CommandEffect.retired_ok (i := .str rs addr) (.store rfl rfl (Vec.length_eq _) (.inr (by omega))) nofun,
    fun i hi => ⟨?low, ?high⟩, onlyBytes_memWrite ..⟩, fun h => exec_outOfRange rfl (by decide) (by omega)⟩
  case low =>
    rw [byteAt, readByte_memWrite_retire (n := 512) _ _ _ _ (by omega), nth_ser_low _ hi, toNat_lowByte, lane]
  case high =>
    rw [byteAt, Nat.add_assoc, readByte_memWrite_retire (n := 512) _ _ _ _ (by omega), nth_ser_high _ hi,
      toNat_highByte, lane]

/-- Settles O38: the seed register holds the bytes read. -/
theorem ldsLoadsASeed : Obligations.LdsLoadsASeed := by
  intro sd addr s
  refine ⟨by simp [encode, toNat_packAddr], fun h => ⟨_, exec_lds_inRange h sd s,
    CommandEffect.retired_ok (i := .lds sd addr) (.seed (.head _)) nofun, fun j hj => ?bytes, fun _ _ => rfl,
    fun k hk => ?others, rfl, rfl, fun _ => rfl⟩, fun h => exec_outOfRange rfl (by decide) (by omega)⟩
  case bytes => rw [State.seedReg_retire, State.seedReg_setSeed_same, State.nth_memRead _ _ _ hj]
  case others => rw [State.seedReg_retire, State.seedReg_setSeed, if_neg (mt List.mem_singleton.2 hk)]

/-- Settles O39: the bytes stored are those of the seed register. -/
theorem stsStoresASeed : Obligations.StsStoresASeed := by
  intro ss addr s
  exact ⟨by simp [encode, toNat_packAddr], fun h => ⟨_, exec_sts_inRange h ss s,
    CommandEffect.retired_ok (i := .sts ss addr) (.store rfl rfl (Vec.length_eq _) (.inr (by omega))) nofun,
    fun j hj => readByte_memWrite_retire _ _ _ _ hj, onlyBytes_memWrite ..⟩,
    fun h => exec_outOfRange rfl (by decide) (by omega)⟩

/-! ### The statements: register and lane moves -/

/-- Settles O40: every entry of the element written is 0. -/
theorem rzeroClearsEveryLane : Obligations.RzeroClearsEveryLane := by
  intro rd s
  refine ⟨by simp [encode, toNat_packRegs], _, exec_rzero rd s, retired_setRing .., fun i hi => ?_,
    onlyRing_setRing ..⟩
  rw [lane_setRing_retire, coeff, Vec.nth_tab _ hi]
  rfl

/-- Settles O41: one entry of the register is replaced, by the immediate as it is. -/
theorem rsetlWritesOneLane : Obligations.RsetlWritesOneLane := by
  intro rd idx imm s
  refine ⟨by simp [encode, toNat_packIdx], _, exec_rsetl rd idx imm s, retired_setRing .., ?written,
    fun i hi hne => ?others, onlyRing_setRing ..⟩ <;> rw [lane_setRing_retire, coeff]
  case written => rw [Vec.nth_set _ _ _ idx.isLt, if_pos rfl, toNat_laneOfImm]
  case others => rw [Vec.nth_set _ _ _ hi, if_neg hne, lane]

/-- Settles O42: a lane fits RVAL with 16 bits to spare. -/
theorem rgetlReadsOneLane : Obligations.RgetlReadsOneLane := by
  intro rs idx s
  refine ⟨by simp [encode, toNat_packIdx], _, exec_rgetl rs idx s,
    CommandEffect.retired_ok (i := .rgetl rs idx) (.rval rfl (toNat_wordOfLane_lt _)) nofun, ?_, onlyRval_setRval ..⟩
  rw [State.retire_rval, State.setRval_rval, toNat_wordOfLane, ← Vec.nth_eq_get, lane]

end Sys2Proof.Machine
end

section
/-! The sketch codec family (42_sketch_codec.md). COMPRESS leaves a sketch whose entries agree with the element, and an
element is reconstructed from exactly those entries that agree with it and keep its odd lanes below Q; so the round trip
and both kinds of tampering are read off one equivalence, with the checksum deciding. The field transfers move byte
strings, a sequence of entries being one of twice its length. -/

namespace Sys2Proof.Machine

open Sys2Proof Sys2Proof.Claims

/-! ### The words -/

theorem toNat_packLen {op : Nat} (len : BitVec 8) (addr : Addr) (hop : op < 256) :
    (packLen op len addr).toNat = op * 2 ^ 24 + len.toNat * 2 ^ 16 + addr.toNat := by
  have := len.isLt
  have := addr.isLt
  rw [packLen, BitVec.toNat_ofNat]
  omega

/-! ### Retirement -/

theorem getLsbD_one_shiftLeft {n : Nat} (hn : n < 32) (k : Nat) : (1#32 <<< n).getLsbD k = decide (k = n) :=
  (BitVec.getLsbD_twoPow n k).trans (by simp [hn, eq_comm])

/-- An error sets the sticky bit of its own number and no other (10_state.md R31). -/
theorem getLsbD_stickyAfter_eq (e : Word) (c : ResultCode) (k : Nat) :
    (stickyAfter e c).getLsbD k = (e.getLsbD k || decide (c.number ≠ 0 ∧ k = c.number)) := by
  cases c with
  | ok => simp [ResultCode.number]
  | _ =>
    refine (BitVec.getLsbD_or ..).trans (congrArg _ ?_)
    rw [getLsbD_one_shiftLeft (by decide), decide_eq_decide]
    simp [ResultCode.number]

theorem retired_retire (c : ResultCode) (s : State) : Retired c.number s (s.retire c) where
  result := by cases c <;> rfl
  sticky k _ := getLsbD_stickyAfter_eq s.esticky c k
  count := BitVec.toNat_add ..
  status := rfl
  fcause := rfl
  fcmd := rfl
  host := rfl
  epoch := rfl

theorem nothingWritten_retire (c : ResultCode) (s : State) : NothingWritten s (s.retire c) :=
  ⟨fun _ _ => rfl, fun _ _ => rfl, rfl, rfl, fun _ => rfl⟩

theorem retired_setSketch (k : Sketch) (s : State) : Retired 0 s ((s.setSketch k).retire .ok) :=
  { retired_retire .ok (s.setSketch k) with }

theorem retired_setRval (v : Word) (s : State) : Retired 0 s ((s.setRval v).retire .ok) :=
  { retired_retire .ok (s.setRval v) with }

theorem retired_memWrite (a : Nat) (bs : List Byte) (s : State) : Retired 0 s ((s.memWrite a bs).retire .ok) :=
  { retired_retire .ok (s.memWrite a bs) with }

theorem onlySketch_setSketch (k : Sketch) (s : State) : OnlySketch s ((s.setSketch k).retire .ok) :=
  ⟨fun _ _ => rfl, fun _ _ => rfl, rfl, fun _ => rfl⟩

/-! ### Elements and sequences, two entries at a time -/

/-- A sequence of even length is known by its entries at even and at odd places. -/
theorem ext_nth_pairs {w n : Nat} {x y : Vec (BitVec w) (2 * n)}
    (h : ∀ i < n, x.nth (2 * i) = y.nth (2 * i) ∧ x.nth (2 * i + 1) = y.nth (2 * i + 1)) : x = y := by
  refine Vec.ext_nth fun j hj => ?_
  obtain ⟨heven, hodd⟩ := h (j / 2) (by omega)
  rcases Nat.mod_two_eq_zero_or_one j with hj' | hj'
  · rwa [show 2 * (j / 2) = j by omega] at heven
  · rwa [show 2 * (j / 2) + 1 = j by omega] at hodd

theorem isSer_ser (x : RingElem) : IsSer (ser x) x := fun i hi => by
  rw [nth_ser_low x hi, nth_ser_high x hi, toNat_lowByte, toNat_highByte]
  exact ⟨rfl, rfl⟩

theorem eq_ser_of_isSer {y : Vec Byte 512} {x : RingElem} (h : IsSer y x) : y = ser x := by
  refine ext_nth_pairs (n := 256) fun i hi => ?_
  obtain ⟨hlow, hhigh⟩ := h i hi
  obtain ⟨hlow', hhigh'⟩ := isSer_ser x i hi
  exact ⟨BitVec.eq_of_toNat_eq (hlow.trans hlow'.symm), BitVec.eq_of_toNat_eq (hhigh.trans hhigh'.symm)⟩

theorem isReconstructed_reconstruct (k : Sketch) : IsReconstructed k (reconstruct k.anchor k.parity) := fun i hi =>
  ⟨nth_reconstruct_even _ _ hi, by rw [nth_reconstruct_odd _ _ hi, int_laneOfResidue]⟩

theorem eq_reconstruct_of_isReconstructed {k : Sketch} {b : RingElem} (h : IsReconstructed k b) :
    b = reconstruct k.anchor k.parity := by
  refine ext_nth_pairs (n := 128) fun i hi => ?_
  obtain ⟨heven, hodd⟩ := h i hi
  obtain ⟨heven', hodd'⟩ := isReconstructed_reconstruct k i hi
  exact ⟨heven.trans heven'.symm, BitVec.eq_of_toNat_eq (Int.ofNat.inj (hodd.trans hodd'.symm))⟩

theorem chkOf_eq_iff (b : RingElem) (c : Chk) : chkOf b = c ↔ ∀ j < 8, c.nth j = Config.checksumByte (ser b) j :=
  ⟨fun h _ hj => h ▸ nth_chkOf b hj, fun h => Vec.ext_nth fun j hj => (nth_chkOf b hj).trans (h j hj).symm⟩

/-! ### COMPRESS -/

theorem toNat_nth_parityOf (b : RingElem) (old : Vec Lane 256) {i : Nat} (hi : i < 128) :
    ((parityOf b old).nth i).toNat = (coeff b (2 * i) + coeff b (2 * i + 1)) % 3329 := by
  rw [nth_parityOf b old (by omega), if_pos hi, toNat_laneOfResidue, ← Nat.cast_add]
  rfl

/-- Settles O45: the first half of each buffer is the pipeline's, the other half is kept. -/
theorem compressMakesTheSketch : Obligations.CompressMakesTheSketch := by
  intro ra rb ss s y hy
  obtain rfl := eq_ser_of_isSer hy
  refine ⟨by simp [encode, toNat_packRegs], _, exec_compress ra rb ss s, retired_setSketch .., rfl, rfl, rfl,
    fun j hj => nth_chkOf _ hj, fun i hi => ⟨?anchor, toNat_nth_parityOf _ _ hi⟩,
    fun i hi hhalf => ⟨?keptAnchor, ?keptParity⟩, onlySketch_setSketch ..⟩
  case anchor => exact congrArg BitVec.toNat ((nth_decimate _ _ (by omega)).trans (if_pos hi))
  case keptAnchor => exact (nth_decimate _ _ hi).trans (if_neg (by omega))
  case keptParity => exact (nth_parityOf _ _ hi).trans (if_neg (by omega))

/-! ### DECOMPRESS -/

section Decompress

variable {rda rdb : RingReg} {s : State}

theorem exec_decompress_sameRegister (h : rda = rdb) :
    exec (.decompress rda rdb) s = .next (s.raiseFault .illegalCmd (encode (.decompress rda rdb))) := if_pos h

theorem exec_decompress_badLength (hne : rda ≠ rdb) (h : s.sk.alen.toNat ≠ 128 ∨ s.sk.plen.toNat ≠ 128) :
    exec (.decompress rda rdb) s = .next (s.retire .invalidInput) := (if_neg hne).trans (if_pos h)

theorem exec_decompress_validLength (hne : rda ≠ rdb) (ha : s.sk.alen.toNat = 128) (hp : s.sk.plen.toNat = 128) :
    exec (.decompress rda rdb) s =
      if chkOf (reconstruct s.sk.anchor s.sk.parity) ≠ s.sk.chk then .next (s.retire .checksumMismatch)
      else .next (((s.setRing rda (gen s.sk.seed 0)).setRing rdb (reconstruct s.sk.anchor s.sk.parity)).retire .ok) :=
  (if_neg hne).trans (if_neg (not_or.2 ⟨not_not.2 ha, not_not.2 hp⟩))

theorem decompress_effect (x y : RingElem) : CommandEffect (.decompress rda rdb) s ((s.setRing rda x).setRing rdb y) :=
  .twoRings (.head _) (.tail _ (.head _))

end Decompress

/-- Settles O46: the tests in R142's order, on the one element the sketch reconstructs. -/
theorem decompressChecksThenWritesBoth : Obligations.DecompressChecksThenWritesBoth := by
  intro rda rdb s b y hb hy
  obtain rfl := eq_ser_of_isSer hy
  obtain rfl := eq_reconstruct_of_isReconstructed hb
  refine ⟨by simp [encode, toNat_packRegs],
    fun heq => ⟨_, exec_decompress_sameRegister heq, faultEntered_raiseFault .illegalCmd ..⟩,
    fun hne hlen => ⟨_, exec_decompress_badLength hne hlen, retired_retire .invalidInput s, nothingWritten_retire ..⟩,
    fun hne ha hp hchk => ⟨_, (exec_decompress_validLength hne ha hp).trans (if_pos ?mismatch),
      retired_retire .checksumMismatch s, nothingWritten_retire ..⟩,
    fun hne ha hp hchk => ?valid⟩
  case mismatch =>
    obtain ⟨j, hj, hbyte⟩ := hchk
    exact fun heq => hbyte ((chkOf_eq_iff ..).1 heq j hj)
  case valid =>
    refine ⟨_, (exec_decompress_validLength hne ha hp).trans (if_neg (not_not.2 ((chkOf_eq_iff ..).2 hchk))),
      (decompress_effect ..).retired_ok nofun, fun i hi => ?_, ringReg_setRing_retire ..,
      (decompress_effect ..).ringsKept, fun _ _ => rfl, rfl, rfl, fun _ => rfl⟩
    rw [lane, State.ringReg_retire, State.ringReg_setRing, if_neg hne, State.ringReg_setRing_same]
    exact coeff_gen _ _ hi

/-! ### Which sketches reconstruct which element -/

/-- The entries of `k` agree with `x`: the anchors are its even lanes and the parities its sums up to multiples of Q. -/
def EntriesMatch (k : Sketch) (x : RingElem) : Prop :=
  ∀ i < 128, k.anchor.nth i = x.nth (2 * i) ∧
    (k.parity.nth i).toNat % 3329 = (coeff x (2 * i) + coeff x (2 * i + 1)) % 3329

/-- A sketch DECOMPRESS takes past its length test, with the checksum of `x`. -/
structure ChecksummedAs (k : Sketch) (x : RingElem) : Prop where
  alen : k.alen.toNat = 128
  plen : k.plen.toNat = 128
  chk  : ∀ j < 8, k.chk.nth j = Config.checksumByte (ser x) j

/-- Reconstruction solves each parity for the odd lane below Q. -/
theorem isReconstructed_iff {k : Sketch} {b : RingElem} :
    IsReconstructed k b ↔ (∀ i < 128, coeff b (2 * i + 1) < 3329) ∧ EntriesMatch k b := by
  constructor
  · intro h
    refine ⟨fun i hi => ?_, fun i hi => ?_⟩ <;> obtain ⟨heven, hodd⟩ := h i hi
    · rw [coeff]; omega
    · rw [coeff, coeff, heven]
      exact ⟨rfl, by omega⟩
  · rintro ⟨hlt, hmatch⟩ i hi
    obtain ⟨heven, hsum⟩ := hmatch i hi
    have hodd := hlt i hi
    rw [coeff] at hodd
    rw [coeff, coeff] at hsum
    rw [heven]
    exact ⟨rfl, by omega⟩

/-- COMPRESS leaves a sketch of R[rb] that DECOMPRESS can check. -/
theorem compress_matches (ra rb : RingReg) (ss : SeedReg) (s : State) :
    ∃ t, exec (.compress ra rb ss) s = .next t ∧ t.sk.seed = s.seedReg ss ∧ ChecksummedAs t.sk (s.ringReg rb) ∧
      EntriesMatch t.sk (s.ringReg rb) := by
  obtain ⟨-, t, ht, -, halen, hplen, hseed, hchk, hentries, -⟩ := compressMakesTheSketch ra rb ss s _ (isSer_ser _)
  refine ⟨t, ht, hseed, ⟨halen, hplen, hchk⟩, fun i hi => ?_⟩
  obtain ⟨hanchor, hparity⟩ := hentries i hi
  exact ⟨BitVec.eq_of_toNat_eq hanchor, by rw [hparity, Nat.mod_mod]; rfl⟩

theorem decompress_gives_back {rx ry : RingReg} (hne : rx ≠ ry) {s : State} {x : RingElem}
    (hchk : ChecksummedAs s.sk x) (hx : IsReconstructed s.sk x) :
    ∃ v, exec (.decompress rx ry) s = .next v ∧ Retired 0 s v ∧ v.ringReg ry = x ∧
      (∀ i < 256, lane v rx i = Config.GenWide s.sk.seed 0 i % 3329) ∧ v.sk = s.sk := by
  obtain ⟨-, -, -, -, hok⟩ := decompressChecksThenWritesBoth rx ry s x _ hx (isSer_ser x)
  obtain ⟨v, hv, hret, ha, hb, -, -, hsk, -⟩ := hok hne hchk.alen hchk.plen hchk.chk
  exact ⟨v, hv, hret, hb, ha, hsk⟩

/-- DECOMPRESS tells the element it reconstructs from the one that was summed exactly when the checksum does. -/
theorem decompress_reports_checksum {rx ry : RingReg} (hne : rx ≠ ry) {s : State} {x b : RingElem}
    (hchk : ChecksummedAs s.sk x) (hb : IsReconstructed s.sk b) :
    ∃ v, exec (.decompress rx ry) s = .next v ∧ (v.result.toNat = 2 ↔ ¬ SameChecksum b x) ∧
      (v.result.toNat = 0 ↔ SameChecksum b x) := by
  obtain ⟨-, -, -, hbad, hok⟩ := decompressChecksThenWritesBoth rx ry s b _ hb (isSer_ser b)
  by_cases hsame : SameChecksum b x
  · obtain ⟨v, hv, hret, -⟩ := hok hne hchk.alen hchk.plen fun j hj => (hchk.chk j hj).trans (hsame j hj).symm
    exact ⟨v, hv, by simp [hret.result, hsame], by simp [hret.result, hsame]⟩
  · have hdiff : ∃ j < 8, s.sk.chk.nth j ≠ Config.checksumByte (ser b) j := by
      by_contra! hall
      exact hsame fun j hj => (hall j hj).symm.trans (hchk.chk j hj)
    obtain ⟨v, hv, hret, -⟩ := hbad hne hchk.alen hchk.plen hdiff
    exact ⟨v, hv, by simp [hret.result, hsame], by simp [hret.result, hsame]⟩

/-! ### The statements: round trip and tampering -/

/-- Settles O48: the sketch's entries agree with the element, so only the reduction of its odd lanes can be lost. -/
theorem decompressUndoesCompress : Obligations.DecompressUndoesCompress := by
  intro ra rb rx ry ss s hne
  obtain ⟨t, ht, hseed, hchk, hmatch⟩ := compress_matches ra rb ss s
  refine ⟨t, ht, fun u hu => ?_⟩
  rw [← hu] at hseed hchk hmatch ⊢
  refine ⟨fun hlt => ?same, fun b hb => ⟨fun i hi => ?lanes, decompress_reports_checksum hne hchk hb⟩⟩
  case same =>
    rw [← hseed]
    exact decompress_gives_back hne hchk (isReconstructed_iff.2 ⟨hlt, hmatch⟩)
  case lanes =>
    obtain ⟨hlt, hmatch'⟩ := isReconstructed_iff.1 hb
    obtain ⟨heven, hsum⟩ := hmatch i hi
    obtain ⟨heven', hsum'⟩ := hmatch' i hi
    have hodd := hlt i hi
    have hanchor : coeff b (2 * i) = coeff (s.ringReg rb) (2 * i) := congrArg BitVec.toNat (heven'.symm.trans heven)
    refine ⟨hanchor, ?_⟩
    change coeff b (2 * i + 1) = coeff (s.ringReg rb) (2 * i + 1) % 3329
    omega

theorem odd_lt_of_normalised {x : RingElem} (hx : Normalised x) : ∀ i < 128, coeff x (2 * i + 1) < 3329 :=
  fun i hi => hx (2 * i + 1) (show 2 * i + 1 < 256 by omega)

/-- Settles O49: a changed entry still agrees with the element only when it is a parity of the same residue. -/
theorem tamperingIsSeenThroughTheChecksum : Obligations.TamperingIsSeenThroughTheChecksum := by
  intro ra rb rx ry ss s k p hne hk hn
  obtain ⟨t, ht, -, hchk, hmatch⟩ := compress_matches ra rb ss s
  obtain ⟨hanchor, hparity⟩ := hmatch k hk
  refine ⟨t, ht, fun hp => ?unseen, fun hp b hb => ⟨?otherParity, ?_⟩, fun hp b hb => ⟨?otherAnchor, ?_⟩⟩
  case unseen =>
    have hmatch' : EntriesMatch { t.sk with parity := t.sk.parity.set k p } (s.ringReg rb) := by
      intro i hi
      obtain ⟨ha, hs⟩ := hmatch i hi
      refine ⟨ha, ?_⟩
      rw [Vec.nth_set _ _ _ (show i < 256 by omega)]
      split
      case isTrue hik => rw [hp, ← hik, hs]
      case isFalse => exact hs
    obtain ⟨v, hv, hret, hy, -⟩ := decompress_gives_back
      (s := t.setSketch { t.sk with parity := t.sk.parity.set k p }) hne ⟨hchk.alen, hchk.plen, hchk.chk⟩
      (isReconstructed_iff.2 ⟨odd_lt_of_normalised hn, hmatch'⟩)
    exact ⟨v, hv, hret.result, hy⟩
  case otherParity =>
    rintro rfl
    obtain ⟨-, hsum⟩ := (isReconstructed_iff.1 hb).2 k hk
    rw [Vec.nth_set _ _ _ k.isLt, if_pos rfl] at hsum
    exact hp (hsum.trans hparity.symm)
  case otherAnchor =>
    rintro rfl
    obtain ⟨heven, -⟩ := (isReconstructed_iff.1 hb).2 k hk
    rw [Vec.nth_set _ _ _ k.isLt, if_pos rfl] at heven
    exact hp (heven.trans hanchor.symm)
  all_goals exact decompress_reports_checksum (s := t.setSketch _) hne ⟨hchk.alen, hchk.plen, hchk.chk⟩ hb

/-- Settles O50: neither the entries nor the checksum name the seed. -/
theorem checksumDoesNotCoverTheSeed : Obligations.ChecksumDoesNotCoverTheSeed := by
  intro ra rb rx ry ss s σ hne hn
  obtain ⟨t, ht, -, hchk, hmatch⟩ := compress_matches ra rb ss s
  obtain ⟨v, hv, hret, hy, hx, -⟩ := decompress_gives_back (s := t.setSketch { t.sk with seed := σ }) hne
    ⟨hchk.alen, hchk.plen, hchk.chk⟩ (isReconstructed_iff.2 ⟨odd_lt_of_normalised hn, hmatch⟩)
  exact ⟨t, v, ht, hv, hret.result, hy, hx⟩

/-! ### The statements: sizes -/

theorem exec_ksize (s : State) : exec .ksize s = .next ((s.setRval 1024).retire .ok) := rfl

theorem exec_sksize (s : State) : exec .sksize s =
    .next ((s.setRval (BitVec.ofNat 32 (32 + 2 * s.sk.alen.toNat + 8 + 2 * s.sk.plen.toNat))).retire .ok) := rfl

/-- Settles O47: the size of a sketch is far below RVAL's range. -/
theorem sizeCommandsReportByteCounts : Obligations.SizeCommandsReportByteCounts := by
  intro s
  have hsize : (BitVec.ofNat 32 (32 + 2 * s.sk.alen.toNat + 8 + 2 * s.sk.plen.toNat)).toNat =
      32 + 2 * s.sk.alen.toNat + 8 + 2 * s.sk.plen.toNat := by
    have := s.sk.alen.isLt
    have := s.sk.plen.isLt
    rw [BitVec.toNat_ofNat]
    omega
  refine ⟨by decide, by decide, ⟨_, exec_ksize s, retired_setRval .., rfl, onlyRval_setRval ..⟩,
    ⟨_, exec_sksize s, retired_setRval .., hsize, fun ha hp => hsize.trans ?_, onlyRval_setRval ..⟩⟩
  rw [ha, hp]

/-! ### Sequences of entries as byte strings -/

/-- The bytes of the first `len` entries, with their number (42_sketch_codec.md R153, R157). -/
def entrySeq {len : Nat} (h : len ≤ 256) (v : Vec Lane 256) : Vec Byte (2 * len) :=
  ⟨entryBytes len v, length_entryBytes h v⟩

section Entries

variable {len j : Nat} (h : len ≤ 256) (v : Vec Lane 256)

theorem nth_entrySeq_low (hj : j < len) : (entrySeq h v).nth (2 * j) = lowByte (v.nth j) := by
  have hl : j < v.toList.length := by rw [v.length_eq]; exact hj.trans_le h
  simp [entrySeq, entryBytes, Vec.nth, List.getD, laneBytes_low, hj, hl]

theorem nth_entrySeq_high (hj : j < len) : (entrySeq h v).nth (2 * j + 1) = highByte (v.nth j) := by
  have hl : j < v.toList.length := by rw [v.length_eq]; exact hj.trans_le h
  simp [entrySeq, entryBytes, Vec.nth, List.getD, laneBytes_high, hj, hl]

theorem laneAt_entrySeq (hj : j < len) : laneAt (entrySeq h v) j = v.nth j := by
  rw [laneAt, nth_entrySeq_low h v hj, nth_entrySeq_high h v hj, laneOf_bytes]

end Entries

/-- An entry loaded is the lane of the two bytes read for it. -/
theorem nth_loadEntries_lt {len j : Nat} (h : len ≤ 256) (v : Vec Lane 256) (s : State) (a : Nat) (hj : j < len) :
    (loadEntries s a len v).nth j = laneAt (s.memRead a (2 * len)) j := by
  rw [nth_loadEntries s a len v (hj.trans_le h), if_pos hj, laneAt, State.nth_memRead _ _ _ (by omega),
    State.nth_memRead _ _ _ (by omega), Nat.add_assoc]

theorem toNat_laneAt_memRead (s : State) (a : Nat) {n j : Nat} (hj : j < n) :
    (laneAt (s.memRead a (2 * n)) j).toNat = byteAt s (a + 2 * j) + 256 * byteAt s (a + 2 * j + 1) := by
  rw [laneAt, State.nth_memRead _ _ _ (by omega), State.nth_memRead _ _ _ (by omega), toNat_laneOf]
  rfl

/-! ### What the field transfers answer -/

section Transfers

variable {addr : Addr} {s : State}

theorem exec_not_fits {i : Instr} {a n : Nat} (hm : moved s i = some (a, n)) (h : ¬ Fits a n) :
    ∃ t, exec i s = .next t ∧ FaultEntered 2 (encode i) s t := by
  obtain ⟨t, ht, -, hfault⟩ := rangeFaultExactlyWhenOutOfRange i s a n hm
  exact ⟨t, ht, hfault h⟩

theorem transfer_fits {w : Word} {n : Nat} {act : State → State} (h : Fits addr.toNat n) :
    transfer w addr n act s = .next ((act s).retire .ok) := transfer_inRange ((inRange_iff_fits ..).2 h)

theorem exec_sklds_fits (h : Fits addr.toNat 32) : exec (.sklds addr) s =
    .next ((s.setSketch { s.sk with seed := s.memRead addr.toNat 32 }).retire .ok) := by
  rw [exec, execSklds]
  exact transfer_fits h

theorem exec_skldc_fits (h : Fits addr.toNat 8) : exec (.skldc addr) s =
    .next ((s.setSketch { s.sk with chk := s.memRead addr.toNat 8 }).retire .ok) := by
  rw [exec, execSkldc]
  exact transfer_fits h

theorem exec_sklda_fits {len : BitVec 8} (h : Fits addr.toNat (2 * len.toNat)) : exec (.sklda addr len) s =
    .next ((s.setSketch
      { s.sk with anchor := loadEntries s addr.toNat len.toNat s.sk.anchor, alen := len }).retire .ok) := by
  rw [exec, execSklda]
  exact transfer_fits h

theorem exec_skldp_fits {len : BitVec 8} (h : Fits addr.toNat (2 * len.toNat)) : exec (.skldp addr len) s =
    .next ((s.setSketch
      { s.sk with parity := loadEntries s addr.toNat len.toNat s.sk.parity, plen := len }).retire .ok) := by
  rw [exec, execSkldp]
  exact transfer_fits h

/-! A store is told of the sketch it finds in SK, so that a sequence of stores can name the first one's. -/

variable {k : Sketch}

theorem exec_sksts_fits (hk : s.sk = k) (h : Fits addr.toNat 32) :
    exec (.sksts addr) s = .next ((s.memWrite addr.toNat k.seed.toList).retire .ok) := by
  subst hk
  rw [exec, execSksts]
  exact transfer_fits h

theorem exec_skstc_fits (hk : s.sk = k) (h : Fits addr.toNat 8) :
    exec (.skstc addr) s = .next ((s.memWrite addr.toNat k.chk.toList).retire .ok) := by
  subst hk
  rw [exec, execSkstc]
  exact transfer_fits h

theorem exec_sksta_fits (hk : s.sk = k) (h : Fits addr.toNat (2 * k.alen.toNat)) : exec (.sksta addr) s =
    .next ((s.memWrite addr.toNat (entrySeq k.alen.isLt.le k.anchor).toList).retire .ok) := by
  subst hk
  rw [exec, execSksta]
  exact transfer_fits h

theorem exec_skstp_fits (hk : s.sk = k) (h : Fits addr.toNat (2 * k.plen.toNat)) : exec (.skstp addr) s =
    .next ((s.memWrite addr.toNat (entrySeq k.plen.isLt.le k.parity).toList).retire .ok) := by
  subst hk
  rw [exec, execSkstp]
  exact transfer_fits h

end Transfers

/-! ### The statements: field transfers -/

/-- Settles O51: the field holds the bytes read. -/
theorem sketchStringLoads : Obligations.SketchStringLoads := by
  intro addr s
  exact ⟨by simp [encode, toNat_packAddr], by simp [encode, toNat_packAddr],
    fun h => ⟨_, exec_sklds_fits (.inr (by omega)), retired_setSketch .., fun j hj => State.nth_memRead _ _ _ hj, rfl,
      onlySketch_setSketch ..⟩,
    fun h => exec_outOfRange rfl (by decide) (by omega),
    fun h => ⟨_, exec_skldc_fits (.inr (by omega)), retired_setSketch .., fun j hj => State.nth_memRead _ _ _ hj, rfl,
      onlySketch_setSketch ..⟩,
    fun h => exec_outOfRange rfl (by decide) (by omega)⟩

/-- Below the length an entry is the lane of the two bytes read; the others are kept (R152, R156). -/
theorem loadEntries_spec (s : State) (a : Nat) (len : BitVec 8) (old : Vec Lane 256) :
    (∀ j < len.toNat, ((loadEntries s a len.toNat old).nth j).toNat =
      byteAt s (a + 2 * j) + 256 * byteAt s (a + 2 * j + 1)) ∧
    (∀ j < 256, len.toNat ≤ j → (loadEntries s a len.toNat old).nth j = old.nth j) := by
  refine ⟨fun j hj => ?_, fun j hcap hj => (nth_loadEntries s a _ old hcap).trans (if_neg (by omega))⟩
  rw [nth_loadEntries_lt len.isLt.le old s a hj, toNat_laneAt_memRead s a hj]

/-- Settles O52: the entries below the length are the lanes read. -/
theorem sketchSequenceLoads : Obligations.SketchSequenceLoads := by
  intro addr len s
  refine ⟨by simp [encode, toNat_packLen], by simp [encode, toNat_packLen], fun h => ⟨?anchor, ?parity⟩,
    fun h => ⟨exec_not_fits rfl h, exec_not_fits rfl h⟩⟩
  case anchor =>
    obtain ⟨hloaded, hkept⟩ := loadEntries_spec s addr.toNat len s.sk.anchor
    exact ⟨_, exec_sklda_fits h, retired_setSketch .., rfl, hloaded, hkept, rfl, onlySketch_setSketch ..⟩
  case parity =>
    obtain ⟨hloaded, hkept⟩ := loadEntries_spec s addr.toNat len s.sk.parity
    exact ⟨_, exec_skldp_fits h, retired_setSketch .., rfl, hloaded, hkept, rfl, onlySketch_setSketch ..⟩

/-- Settles O53: the bytes stored are the field's. -/
theorem sketchStringStores : Obligations.SketchStringStores := by
  intro addr s
  exact ⟨by simp [encode, toNat_packAddr], by simp [encode, toNat_packAddr],
    fun h => ⟨_, exec_sksts_fits rfl (.inr (by omega)), retired_memWrite ..,
      fun j hj => readByte_memWrite_retire _ _ _ _ hj, onlyBytes_memWrite ..⟩,
    fun h => exec_outOfRange rfl (by decide) (by omega),
    fun h => ⟨_, exec_skstc_fits rfl (.inr (by omega)), retired_memWrite ..,
      fun j hj => readByte_memWrite_retire _ _ _ _ hj, onlyBytes_memWrite ..⟩,
    fun h => exec_outOfRange rfl (by decide) (by omega)⟩

/-- The bytes of an entry just stored. -/
theorem byteAt_memWrite_entrySeq (s : State) (a : Nat) {len : Nat} (h : len ≤ 256) (v : Vec Lane 256) {j : Nat}
    (hj : j < len) :
    byteAt ((s.memWrite a (entrySeq h v).toList).retire .ok) (a + 2 * j) = (v.nth j).toNat % 256 ∧
      byteAt ((s.memWrite a (entrySeq h v).toList).retire .ok) (a + 2 * j + 1) = (v.nth j).toNat / 256 := by
  rw [byteAt, byteAt, Nat.add_assoc, readByte_memWrite_retire s a _ _ (by omega),
    readByte_memWrite_retire s a _ _ (by omega), nth_entrySeq_low h v hj, nth_entrySeq_high h v hj, toNat_lowByte,
    toNat_highByte]
  exact ⟨rfl, rfl⟩

/-- Settles O54: the bytes stored are those of the entries below the length. -/
theorem sketchSequenceStores : Obligations.SketchSequenceStores := by
  intro addr s
  exact ⟨by simp [encode, toNat_packAddr], by simp [encode, toNat_packAddr],
    fun h => ⟨_, exec_sksta_fits rfl h, retired_memWrite .., fun j hj => byteAt_memWrite_entrySeq _ _ _ _ hj,
      onlyBytes_memWrite ..⟩,
    fun h => exec_not_fits rfl h,
    fun h => ⟨_, exec_skstp_fits rfl h, retired_memWrite .., fun j hj => byteAt_memWrite_entrySeq _ _ _ _ hj,
      onlyBytes_memWrite ..⟩,
    fun h => exec_not_fits rfl h⟩

/-! ### The statement: a sketch through memory -/

theorem memRead_congr {s t : State} {a n : Nat} (h : ∀ j < n, s.readByte (a + j) = t.readByte (a + j)) :
    s.memRead a n = t.memRead a n :=
  Vec.ext_nth fun j hj => by rw [State.nth_memRead _ _ _ hj, State.nth_memRead _ _ _ hj, h j hj]

/-- A store puts its bytes in place and leaves what a load reads elsewhere. -/
theorem memRead_after_store {i : Instr} {s t : State} {a n : Nat} {v : Vec Byte n}
    (hi : exec i s = .next ((s.memWrite a v.toList).retire .ok)) (ht : exec i s = .next t) :
    t.sk = s.sk ∧ t.memRead a n = v ∧
      ∀ b m, m = 0 ∨ n = 0 ∨ b + m ≤ a ∨ a + n ≤ b → t.memRead b m = s.memRead b m := by
  obtain rfl := Host.Outcome.next.inj (hi.symm.trans ht)
  obtain ⟨-, -, -, -, hkept⟩ := onlyBytes_memWrite a v s
  exact ⟨rfl, State.memRead_memWrite .., fun b m hdisj => memRead_congr fun j hj => hkept (b + j) (by omega)⟩

/-- A load into SK leaves operand memory. -/
theorem sketch_after_load {i : Instr} {s t : State} {k : Sketch}
    (hi : exec i s = .next ((s.setSketch k).retire .ok)) (ht : exec i s = .next t) :
    t.sk = k ∧ ∀ a n, t.memRead a n = s.memRead a n := by
  obtain rfl := Host.Outcome.next.inj (hi.symm.trans ht)
  exact ⟨rfl, fun _ _ => rfl⟩

/-- Settles O55: no store touches another's bytes and no load another's field, so each load reads what the store of its
field wrote. -/
theorem sketchSurvivesATripThroughMemory : Obligations.SketchSurvivesATripThroughMemory := by
  intro p q r u s t1 t2 t3 t4 v v1 v2 v3 v4
  dsimp only
  intro hp hq hr hu hdisj h1 h2 h3 h4 hheld k1 k2 k3 k4
  simp only [List.pairwise_cons, List.forall_mem_cons] at hdisj hheld
  obtain ⟨⟨hpq, hpr, hpu, -⟩, ⟨hqr, hqu, -⟩, ⟨hru, -⟩, -⟩ := hdisj
  obtain ⟨heldSeed, heldAnchor, heldChk, heldParity, -⟩ := hheld
  obtain ⟨sk1, ownSeed, -⟩ := memRead_after_store (exec_sksts_fits rfl hp) h1
  obtain ⟨sk2, ownAnchor, kept2⟩ := memRead_after_store (exec_sksta_fits sk1 hq) h2
  obtain ⟨sk3, ownChk, kept3⟩ := memRead_after_store (exec_skstc_fits (sk2.trans sk1) hr) h3
  obtain ⟨-, ownParity, kept4⟩ := memRead_after_store (exec_skstp_fits (sk3.trans (sk2.trans sk1)) hu) h4
  have hseed : v.memRead p.toNat 32 = s.sk.seed :=
    (memRead_congr heldSeed).trans ((kept4 _ _ hpu).trans ((kept3 _ _ hpr).trans ((kept2 _ _ hpq).trans ownSeed)))
  have hanchor : v.memRead q.toNat (2 * s.sk.alen.toNat) = entrySeq s.sk.alen.isLt.le s.sk.anchor :=
    (memRead_congr heldAnchor).trans ((kept4 _ _ hqu).trans ((kept3 _ _ hqr).trans ownAnchor))
  have hchk : v.memRead r.toNat 8 = s.sk.chk := (memRead_congr heldChk).trans ((kept4 _ _ hru).trans ownChk)
  have hparity : v.memRead u.toNat (2 * s.sk.plen.toNat) = entrySeq s.sk.plen.isLt.le s.sk.parity :=
    (memRead_congr heldParity).trans ownParity
  obtain ⟨skv1, mem1⟩ := sketch_after_load (exec_sklds_fits hp) k1
  obtain ⟨skv2, mem2⟩ := sketch_after_load (exec_sklda_fits hq) k2
  obtain ⟨skv3, mem3⟩ := sketch_after_load (exec_skldc_fits hr) k3
  obtain ⟨skv4, -⟩ := sketch_after_load (exec_skldp_fits hu) k4
  simp only [skv4, skv3, skv2, skv1]
  refine ⟨hseed, by rw [mem2, mem1, hchk], trivial, trivial, fun j hj => ?anchor, fun j hj => ?parity⟩
  case anchor => rw [nth_loadEntries_lt s.sk.alen.isLt.le _ _ _ hj, mem1, hanchor, laneAt_entrySeq _ _ hj]
  case parity => rw [nth_loadEntries_lt s.sk.plen.isLt.le _ _ _ hj, mem3, mem2, mem1, hparity, laneAt_entrySeq _ _ hj]

end Sys2Proof.Machine
end

section
/-! The system family (43_system.md). NOP is a bare retirement, and CLRERR is one from the state whose sticky bits have
been cleared; retirement with OK sets none. -/

namespace Sys2Proof.Machine

open Sys2Proof Sys2Proof.Claims

theorem exec_nop (s : State) : exec .nop s = .next (s.retire .ok) := rfl

theorem exec_clrerr (s : State) : exec .clrerr s = .next (s.clearSticky.retire .ok) := rfl

theorem nothingWritten_clearSticky (s : State) : NothingWritten s (s.clearSticky.retire .ok) :=
  nothingWritten_retire .ok s.clearSticky

/-- Settles O24: NOP is retirement and nothing more. -/
theorem nopOnlyRetires : Obligations.NopOnlyRetires := by
  intro s
  exact ⟨by decide, _, exec_nop s, retired_retire .ok s, nothingWritten_retire .ok s⟩

/-- Settles O25: retirement with OK leaves the cleared sticky bits clear, and the rest is retirement from a state that
differs from `s` in them alone. -/
theorem clrerrClearsTheStickyBits : Obligations.ClrerrClearsTheStickyBits := by
  intro s
  have hretired : Retired 0 s.clearSticky (s.clearSticky.retire .ok) := retired_retire .ok s.clearSticky
  have hsticky : (s.clearSticky.retire .ok).esticky = 0 := by
    rw [State.retire_esticky, stickyAfter_ok, State.clearSticky_esticky]
  exact ⟨by decide, _, exec_clrerr s, hsticky, rfl, hretired.count, hretired.status, hretired.fcause, hretired.fcmd,
    hretired.host, hretired.epoch, nothingWritten_clearSticky s⟩

end Sys2Proof.Machine
end

section
/-! The exceptions family (60_exceptions.md). While the unit is faulted a CMD write is dropped, and of the host's actions
reset alone writes the fault registers; a command retires with what `CommandOutcome` allows it, and one that moves no
bytes has no fault to raise. -/

namespace Sys2Proof.Machine

open Sys2Proof Sys2Proof.Claims

/-! ### While faulted -/

theorem State.withPending_eq_self {s : State} {q : List HostAction} (h : s.host.pending = q) :
    s.withPending q = s := by
  rw [← h]
  rfl

/-- A CMD write to a faulted unit is taken off the queue and dropped (60_exceptions.md R193). -/
theorem step_cmd_of_faulted {s : State} {w : Word} {q : List HostAction} (hf : s.faulted = true)
    (hp : s.host.pending = .writeCtrl 0x00 w :: q) : step s = .next (s.withPending q) := by
  rw [step_action hp, perform_writeCtrl, writeCtrl_cmd]
  exact issue_faulted hf

/-- Settles O10: the CMD write is dropped, and of the other actions only the two resets write a fault register. -/
theorem onlyResetLeavesAFault : Obligations.OnlyResetLeavesAFault := by
  intro s t a q hf hp h
  have hdropped : ∀ w, a = .writeCtrl 0x00 w → t = s.withPending q := by
    rintro w rfl
    exact Host.Outcome.next.inj (h.symm.trans (step_cmd_of_faulted hf hp))
  refine ⟨hdropped, ?_⟩
  rw [step_action hp] at h
  cases a with
  | resetInput => exact .inl (.inl rfl)
  | writeMem | readMem | readCtrl => cases h; exact .inr ⟨rfl, rfl, rfl⟩
  | writeCtrl off w =>
    rcases writeCtrl_next h with ⟨rfl, -⟩ | ⟨rfl, hw, -⟩ | rfl
    · rw [hdropped w rfl]
      exact .inr ⟨rfl, rfl, rfl⟩
    · exact .inl (.inr ⟨w, rfl, hw⟩)
    · exact .inr ⟨rfl, rfl, rfl⟩

/-- Settles O11, by induction on the program: dropping its first CMD write leaves the unit faulted before the rest. -/
theorem commandsAfterAFaultDoNothing : Obligations.CommandsAfterAFaultDoNothing := by
  intro is
  induction is with
  | nil =>
    intro s _ hp
    exact congrArg Host.Outcome.next (State.withPending_eq_self hp).symm
  | cons i is ih =>
    intro s hf hp
    calc Host.Core.run core (is.length + 1) s
        = Host.Core.run core is.length (s.withPending (issueAll is)) := run_succ (step_cmd_of_faulted hf hp)
      _ = .next (s.withPending []) := ih (s.withPending (issueAll is)) hf rfl

/-! ### Retirement with an error -/

/-- Settles O21: a fault keeps CMDCNT, so the command retired, and a code other than OK is DECOMPRESS's. -/
theorem onlyDecompressReportsAnError : Obligations.OnlyDecompressReportsAnError := by
  intro i s t h hcount hresult
  cases exec_next h with
  | fault => exact absurd rfl hcount
  | retired _ hc =>
    obtain rfl | ⟨rfl | rfl, hi⟩ := hc
    · exact absurd rfl hresult
    · exact ⟨hi, .inl rfl⟩
    · exact ⟨hi, .inr rfl⟩

/-! ### Commands without a transfer -/

/-- With different destinations, neither of DECOMPRESS's two tests raises a fault (42_sketch_codec.md R142). -/
theorem decompress_retires {rda rdb : RingReg} (hne : rda ≠ rdb) (s : State) :
    ∃ u c, exec (.decompress rda rdb) s = .next (u.retire c) ∧ CommandEffect (.decompress rda rdb) s u := by
  by_cases hlen : s.sk.alen.toNat = 128 ∧ s.sk.plen.toNat = 128
  · obtain ⟨ha, hp⟩ := hlen
    rw [exec_decompress_validLength hne ha hp]
    split
    · exact ⟨_, _, rfl, .nothing⟩
    · exact ⟨_, _, rfl, decompress_effect ..⟩
  · exact ⟨_, _, exec_decompress_badLength hne (not_and_or.1 hlen), .nothing⟩

/-- Settles O9: of the commands that move no bytes only DECOMPRESS can raise a fault, and it is well formed only
with different destinations. -/
theorem noFaultWithoutATransfer : Obligations.NoFaultWithoutATransfer := by
  intro i s hwf hm
  cases i with
  | decompress rda rdb =>
    obtain ⟨u, c, hexec, he⟩ := decompress_retires (bne_iff_ne.1 hwf) s
    exact ⟨_, hexec, he.status, he.fcause, he.fcmd⟩
  | ldr | str | lds | sts | sklds | sksts | sklda | sksta | skldc | skstc | skldp | skstp => cases hm
  | nop | clrerr | radd | rsub | rmul | rred | req | rgen | rzero | rsetl | rgetl | compress | ksize | sksize =>
    exact ⟨_, rfl, rfl, rfl, rfl⟩

end Sys2Proof.Machine
end

section
/-! The reset and hazard family (70_reset_and_hazards.md). A command that has retired finds its own result in place when
it is issued again (R218): what it reads is what it read before, each of its updates writes what is already there, and
of the registers that retirement writes only CMDCNT moves. -/

namespace Sys2Proof

/-- Entries written over some indices of a sequence, and then over them again. -/
theorem Vec.tab_overwrite_twice {n w : Nat} (p : Nat → Prop) [DecidablePred p] (f : Nat → BitVec w)
    (old : Vec (BitVec w) n) :
    (Vec.tab n fun i => if p i then f i else (Vec.tab n fun j => if p j then f j else old.nth j).nth i) =
      Vec.tab n fun i => if p i then f i else old.nth i := by
  apply Vec.ext_nth
  intro i hi
  rw [Vec.nth_tab _ hi, Vec.nth_tab _ hi]
  split <;> rfl

end Sys2Proof

namespace Sys2Proof.Machine

open Sys2Proof Sys2Proof.Claims

/-! ### Reset -/

/-- Settles O13: both actions are `State.resetUnit`, whose registers are R43's and whose host is the one before. -/
theorem resetClearsTheControlState : Obligations.ResetClearsTheControlState := by
  intro s q w hw
  have hsrst : perform (.writeCtrl 0x30 w) (s.withPending q) = .next (s.withPending q).resetUnit := by
    rw [perform_writeCtrl, writeCtrl_ctrl, if_pos hw]
  exact ⟨_, perform_resetInput _, hsrst, State.resetUnit_status _, State.resetUnit_result _, State.resetUnit_esticky _,
    State.resetUnit_rval _, State.resetUnit_cmdcnt _, State.resetUnit_fcause _, State.resetUnit_fcmd _,
    State.resetUnit_alen _, State.resetUnit_plen _, State.faulted_resetUnit _, State.resetUnit_host _⟩

/-! ### Updates that write what is already there -/

namespace State

variable {s : State}

theorem setRing_eq_self {r : RingReg} {x : RingElem} (h : s.ringReg r = x) : s.setRing r x = s := by
  rw [← h, setRing_ringReg]

theorem setSeed_eq_self {k : SeedReg} {x : Seed} (h : s.seedReg k = x) : s.setSeed k x = s := by
  rw [← h, setSeed, seedReg, Vec.set_get]

theorem setSketch_eq_self {k : Sketch} (h : s.sk = k) : s.setSketch k = s := by
  rw [← h, setSketch]

theorem setRval_eq_self {v : Word} (h : s.rval = v) : s.setRval v = s := by
  rw [← h, setRval]

/-- Retirement does not touch memory, and there the bytes already are. -/
theorem memWrite_retire_memWrite (h : s.omem.wf) {a : Addr} {bs : List Byte} (hfits : Fits a.toNat bs.length)
    (c : ResultCode) :
    ((s.memWrite a.toNat bs).retire c).memWrite a.toNat bs = (s.memWrite a.toNat bs).retire c := by
  have hend : a.toNat + bs.length ≤ Config.OMEM_BYTES := by
    have := a.isLt
    simp only [Fits, Config.OMEM_BYTES] at *
    omega
  exact congrArg (fun m => { (s.memWrite a.toNat bs).retire c with omem := m }) (Memory.writeBytes_twice h hend)

theorem setRing_setRing_retire_twice {d e : RingReg} (hne : d ≠ e) (x y : RingElem) (c : ResultCode) :
    ((((s.setRing d x).setRing e y).retire c).setRing d x).setRing e y = ((s.setRing d x).setRing e y).retire c := by
  have hd : (((s.setRing d x).setRing e y).retire c).ringReg d = x := by
    rw [ringReg_retire, ringReg_setRing, if_neg hne, ringReg_setRing_same]
  rw [setRing_eq_self hd, setRing_eq_self (ringReg_setRing_retire ..)]

end State

/-! ### Functions whose value is their own fixed point -/

theorem ringReduce_ringReduce (x : RingElem) : ringReduce (ringReduce x) = ringReduce x :=
  ext_coeff fun i hi => by rw [coeff_ringReduce _ hi, coeff_ringReduce _ hi, Nat.mod_mod]

theorem decimate_decimate (b : RingElem) (old : Vec Lane 256) : decimate b (decimate b old) = decimate b old :=
  Vec.tab_overwrite_twice (· < 128) _ old

theorem parityOf_parityOf (b : RingElem) (old : Vec Lane 256) : parityOf b (parityOf b old) = parityOf b old :=
  Vec.tab_overwrite_twice (· < 128) _ old

theorem loadEntries_loadEntries (s : State) (a len : Nat) (old : Vec Lane 256) :
    loadEntries s a len (loadEntries s a len old) = loadEntries s a len old :=
  Vec.tab_overwrite_twice (· < len) _ old

theorem stickyAfter_stickyAfter (e : Word) (c : ResultCode) : stickyAfter (stickyAfter e c) c = stickyAfter e c := by
  cases c with
  | ok => rfl
  | invalidInput | checksumMismatch | reconstructionFailed =>
    simp only [stickyAfter, BitVec.or_assoc, BitVec.or_self]

/-- Of what retirement writes, only CMDCNT differs the second time. -/
theorem State.retire_retire (u : State) (c : ResultCode) :
    (u.retire c).retire c = { u.retire c with cmdcnt := (u.retire c).cmdcnt + 1 } :=
  congrArg (fun e => { u.retire c with esticky := e, cmdcnt := (u.retire c).cmdcnt + 1 })
    (stickyAfter_stickyAfter u.esticky c)

/-! ### Range and codec facts of a command that retired -/

/-- A command that moved bytes and has not faulted had them all in range. -/
theorem fits_of_unfaulted {i : Instr} {s t : State} {a n : Nat} (hm : moved s i = some (a, n)) (h : exec i s = .next t)
    (hf : t.faulted = false) : Fits a n := by
  by_contra hfits
  obtain ⟨u, hu, hfault⟩ := exec_not_fits hm hfits
  cases h.symm.trans hu
  have hstatus : t.status = 1 := BitVec.eq_of_toNat_eq hfault.status
  simp [State.faulted, hstatus] at hf

theorem le_of_fits {a n : Nat} (hn : 0 < n) (h : Fits a n) : a ≤ 65536 - n := by
  unfold Fits at h
  omega

/-! DECOMPRESS is told of the sketch it finds in SK, so that a second one can name the first one's. -/

section Decompress

variable {rda rdb : RingReg} {s : State} {k : Sketch}

theorem exec_decompress_badChecksum (hk : s.sk = k) (hne : rda ≠ rdb) (ha : k.alen.toNat = 128)
    (hp : k.plen.toNat = 128) (hchk : chkOf (reconstruct k.anchor k.parity) ≠ k.chk) :
    exec (.decompress rda rdb) s = .next (s.retire .checksumMismatch) := by
  subst hk
  exact (exec_decompress_validLength hne ha hp).trans (if_pos hchk)

theorem exec_decompress_valid (hk : s.sk = k) (hne : rda ≠ rdb) (ha : k.alen.toNat = 128)
    (hp : k.plen.toNat = 128) (hchk : chkOf (reconstruct k.anchor k.parity) = k.chk) :
    exec (.decompress rda rdb) s =
      .next (((s.setRing rda (gen k.seed 0)).setRing rdb (reconstruct k.anchor k.parity)).retire .ok) := by
  subst hk
  exact (exec_decompress_validLength hne ha hp).trans (if_neg (not_not.2 hchk))

end Decompress

/-! ### A command issued again -/

/-- The unit has just retired with some code, and command `i` retires from it with that code and no other effect. -/
def RetiresAgain (i : Instr) (t : State) : Prop :=
  ∃ (u : State) (c : ResultCode), t = u.retire c ∧ exec i t = .next (t.retire c)

namespace RetiresAgain

variable {i : Instr} {s t : State}

theorem of_retire {u : State} {c : ResultCode} (h : exec i s = .next t) (hfirst : exec i s = .next (u.retire c))
    (hagain : exec i (u.retire c) = .next ((u.retire c).retire c)) : RetiresAgain i t := by
  obtain rfl : u.retire c = t := Host.Outcome.next.inj (hfirst.symm.trans h)
  exact ⟨u, c, rfl, hagain⟩

/-- A command whose effect `act` finds its own result in place. -/
theorem of_effect {act : State → State} (h : exec i s = .next t) (hexec : ∀ v, exec i v = .next ((act v).retire .ok))
    (hact : act ((act s).retire .ok) = (act s).retire .ok) : RetiresAgain i t :=
  of_retire h (hexec s) ((hexec _).trans (by rw [hact]))

/-- A ring operation computes the same element again when its destination is none of its sources. -/
theorem of_ringOp {op : RingElem → RingElem → RingElem} {rd rs1 rs2 : RingReg} (h : exec i s = .next t)
    (hexec : ∀ v, exec i v = .next ((v.setRing rd (op (v.ringReg rs1) (v.ringReg rs2))).retire .ok))
    (hapart : ∀ r ∈ [rs1, rs2], r ≠ rd) : RetiresAgain i t := by
  have h1 : rs1 ≠ rd := hapart rs1 (.head _)
  have h2 : rs2 ≠ rd := hapart rs2 (.tail _ (.head _))
  refine of_effect h hexec (State.setRing_eq_self ?_)
  simp only [State.ringReg_retire, State.ringReg_setRing, if_neg h1, if_neg h2, if_true]

/-- A store writes the same bytes to the same place again. -/
theorem of_store {addr : Addr} {n : Nat} {v : Vec Byte n} (h : exec i s = .next t) (hwf : s.omem.wf)
    (hfits : Fits addr.toNat n) (hfirst : exec i s = .next ((s.memWrite addr.toNat v.toList).retire .ok))
    (hagain : exec i ((s.memWrite addr.toNat v.toList).retire .ok) =
      .next ((((s.memWrite addr.toNat v.toList).retire .ok).memWrite addr.toNat v.toList).retire .ok)) :
    RetiresAgain i t := by
  refine of_retire h hfirst (hagain.trans ?_)
  rw [State.memWrite_retire_memWrite hwf (v.length_eq.symm ▸ hfits)]

/-- DECOMPRESS reads only SK, which it does not write: its tests answer as before. -/
theorem of_decompress {rda rdb : RingReg} (h : exec (.decompress rda rdb) s = .next t) (hf : t.faulted = false) :
    RetiresAgain (.decompress rda rdb) t := by
  by_cases hne : rda = rdb
  · cases (exec_decompress_sameRegister hne).symm.trans h
    cases hf.symm.trans (State.faulted_raiseFault ..)
  by_cases hlen : s.sk.alen.toNat = 128 ∧ s.sk.plen.toNat = 128
  case neg =>
    have hbad := not_and_or.1 hlen
    exact of_retire h (exec_decompress_badLength hne hbad) (exec_decompress_badLength hne hbad)
  obtain ⟨ha, hp⟩ := hlen
  by_cases hchk : chkOf (reconstruct s.sk.anchor s.sk.parity) = s.sk.chk
  case neg =>
    exact of_retire h (exec_decompress_badChecksum rfl hne ha hp hchk) (exec_decompress_badChecksum rfl hne ha hp hchk)
  refine of_retire h (exec_decompress_valid rfl hne ha hp hchk)
    ((exec_decompress_valid (by rfl) hne ha hp hchk).trans ?_)
  rw [State.setRing_setRing_retire_twice hne]

/-- What moves bytes and does not fault had them all in range, and moves the same bytes again. -/
theorem of_transfer {a n : Nat} (hm : moved s i = some (a, n)) (hwf : s.omem.wf) (h : exec i s = .next t)
    (hf : t.faulted = false) : RetiresAgain i t := by
  have hfits : Fits a n := fits_of_unfaulted hm h hf
  cases i with
  | ldr rd addr =>
    cases hm
    exact of_effect h (exec_ldr_inRange (le_of_fits (by decide) hfits) rd)
      (State.setRing_eq_self (ringReg_setRing_retire ..))
  | lds sd addr =>
    cases hm
    exact of_effect h (exec_lds_inRange (le_of_fits (by decide) hfits) sd)
      (State.setSeed_eq_self (State.seedReg_setSeed_same ..))
  | sklds => cases hm; exact of_effect h (fun _ => exec_sklds_fits hfits) (State.setSketch_eq_self rfl)
  | skldc => cases hm; exact of_effect h (fun _ => exec_skldc_fits hfits) (State.setSketch_eq_self rfl)
  | sklda addr len =>
    cases hm
    exact of_effect h (fun _ => exec_sklda_fits hfits) (State.setSketch_eq_self
      (congrArg (fun x => ({ s.sk with anchor := x, alen := len } : Sketch)) (loadEntries_loadEntries ..).symm))
  | skldp addr len =>
    cases hm
    exact of_effect h (fun _ => exec_skldp_fits hfits) (State.setSketch_eq_self
      (congrArg (fun x => ({ s.sk with parity := x, plen := len } : Sketch)) (loadEntries_loadEntries ..).symm))
  | str rs addr =>
    cases hm
    have haddr := le_of_fits (by decide) hfits
    exact of_store h hwf hfits (exec_str_inRange haddr rs s) (exec_str_inRange haddr rs _)
  | sts ss addr =>
    cases hm
    have haddr := le_of_fits (by decide) hfits
    exact of_store h hwf hfits (exec_sts_inRange haddr ss s) (exec_sts_inRange haddr ss _)
  | sksts => cases hm; exact of_store h hwf hfits (exec_sksts_fits rfl hfits) (exec_sksts_fits rfl hfits)
  | skstc => cases hm; exact of_store h hwf hfits (exec_skstc_fits rfl hfits) (exec_skstc_fits rfl hfits)
  | sksta => cases hm; exact of_store h hwf hfits (exec_sksta_fits rfl hfits) (exec_sksta_fits rfl hfits)
  | skstp => cases hm; exact of_store h hwf hfits (exec_skstp_fits rfl hfits) (exec_skstp_fits rfl hfits)
  | nop | clrerr | radd | rsub | rmul | rred | req | rgen | rzero | rsetl | rgetl | compress | decompress | ksize
  | sksize => cases hm

end RetiresAgain

/-- But for RRED and RSETL, a repeatable command writes no ring register it reads. -/
theorem source_ne_dest {i : Instr} (hi : repeatable i) (hrred : ∀ d, i ≠ .rred d) (hrsetl : ∀ d k v, i ≠ .rsetl d k v)
    {d : RingReg} (hd : d ∈ ringDests i) : ∀ r ∈ ringSources i, r ≠ d := by
  obtain hapart | ⟨d, rfl⟩ | ⟨d, k, v, rfl⟩ := hi
  · exact fun r hr => ne_of_mem_of_not_mem hr (hapart d hd)
  · exact absurd rfl (hrred d)
  · exact absurd rfl (hrsetl d k v)

/-- Issued again after it has retired, a repeatable command only retires again: the transfers and DECOMPRESS by their
own lemmas, the others because their one update is in place. -/
theorem retiresAgain_of_exec {i : Instr} {s t : State} (hi : repeatable i) (hwf : s.omem.wf) (h : exec i s = .next t)
    (hf : t.faulted = false) : RetiresAgain i t := by
  cases i with
  | nop => exact .of_effect h exec_nop rfl
  | clrerr => exact .of_effect h exec_clrerr rfl
  | radd rd rs1 rs2 => exact .of_ringOp h (exec_radd rd rs1 rs2) (source_ne_dest hi nofun nofun (.head _))
  | rsub rd rs1 rs2 => exact .of_ringOp h (exec_rsub rd rs1 rs2) (source_ne_dest hi nofun nofun (.head _))
  | rmul rd rs1 rs2 => exact .of_ringOp h (exec_rmul rd rs1 rs2) (source_ne_dest hi nofun nofun (.head _))
  | rred rd =>
    refine .of_effect h (exec_rred rd) (State.setRing_eq_self ?_)
    rw [ringReg_setRing_retire, ringReduce_ringReduce]
  | rsetl rd idx imm =>
    refine .of_effect h (exec_rsetl rd idx imm) (State.setRing_eq_self ?_)
    rw [ringReg_setRing_retire, Vec.set_set]
  | rgen rd ss domain =>
    exact .of_effect h (exec_rgen rd ss domain) (State.setRing_eq_self (ringReg_setRing_retire ..))
  | rzero rd => exact .of_effect h (exec_rzero rd) (State.setRing_eq_self (ringReg_setRing_retire ..))
  | req rs1 rs2 => exact .of_effect h (exec_req rs1 rs2) (State.setRval_eq_self rfl)
  | rgetl rs idx => exact .of_effect h (exec_rgetl rs idx) (State.setRval_eq_self rfl)
  | ksize => exact .of_effect h exec_ksize (State.setRval_eq_self rfl)
  | sksize => exact .of_effect h exec_sksize (State.setRval_eq_self rfl)
  | compress ra rb ss =>
    refine .of_effect h (exec_compress ra rb ss) (State.setSketch_eq_self ?_)
    simp [decimate_decimate, parityOf_parityOf]
  | decompress => exact .of_decompress h hf
  | ldr | str | lds | sts | sklds | sksts | sklda | sksta | skldc | skstc | skldp | skstp =>
    exact .of_transfer rfl hwf h hf

/-- Settles O23: the command retires from `t` with no other effect, and retirement moves CMDCNT alone. -/
theorem repeatedCommandLeavesTheSameState : Obligations.RepeatedCommandLeavesTheSameState := by
  intro i s t hi hwf _ h hf
  obtain ⟨u, c, rfl, hagain⟩ := retiresAgain_of_exec hi hwf h hf
  refine ⟨_, hagain, ?_, (retired_retire c (u.retire c)).count⟩
  rw [State.retire_retire]

end Sys2Proof.Machine
end

section
/-! The command word at the unit's CMD register: the words written out in the spec (30_encoding.md section 8), what a
CMD write does (R71), and a word put before the step. -/

namespace Sys2Proof.Machine

open Sys2Proof Sys2Proof.Claims

/-! ### Words of the spec -/

/-- Settles O4: the first seven are the words of their commands, so decoding returns these; the last two break R72, by
equal destinations and by an unassigned opcode. -/
theorem wordsOfTheSpecDecode : Obligations.WordsOfTheSpecDecode := by
  have hword : ∀ {w i}, i.wellFormed = true → encode i = w → decode w = some i :=
    fun hwf hw => decode_eq_some_iff_encode_eq.2 ⟨hwf, hw⟩
  have hequal : decodeWord 0x31110000 = .illegal .equalDestinations := rfl
  have hunassigned : decodeWord 0xFFFFFFFF = .illegal .unassignedOpcode := rfl
  exact ⟨hword rfl rfl, hword rfl rfl, hword rfl rfl, hword rfl rfl, hword rfl rfl, hword rfl rfl, hword rfl rfl,
    decode_eq_none.2 ⟨_, hequal⟩, decode_eq_none.2 ⟨_, hunassigned⟩⟩

/-! ### A CMD write -/

/-- A CMD write to an unfaulted unit executes the command its word carries (30_encoding.md R71). -/
theorem step_cmd_of_decode {s : State} {w : Word} {i : Instr} {q : List HostAction} (hf : s.faulted = false)
    (hd : decode w = some i) (hp : s.host.pending = .writeCtrl 0x00 w :: q) : step s = exec i (s.withPending q) := by
  obtain ⟨hwf, rfl⟩ := decode_eq_some_iff_encode_eq.1 hd
  exact step_of_pending_command hwf hf hp

/-- A CMD write of an illegal word to an unfaulted unit raises ILLEGAL_CMD (30_encoding.md R71, R79). -/
theorem step_cmd_of_illegal {s : State} {w : Word} {q : List HostAction} (hf : s.faulted = false)
    (hd : decode w = none) (hp : s.host.pending = .writeCtrl 0x00 w :: q) :
    step s = .next ((s.withPending q).raiseFault .illegalCmd w) := by
  obtain ⟨_, hill⟩ := decode_eq_none.1 hd
  rw [step_action hp, perform_writeCtrl, writeCtrl_cmd]
  exact issue_illegal hf hill

/-- Settles O5: the issued word is dropped, raises ILLEGAL_CMD or is executed, on the state without that action. -/
theorem stepIssuesTheCommandWord : Obligations.StepIssuesTheCommandWord := by
  intro s w q hp
  refine ⟨fun hf => step_cmd_of_faulted hf hp, fun hf hd => ?illegal, fun i hf hd => step_cmd_of_decode hf hd hp⟩
  exact ⟨_, step_cmd_of_illegal hf hd hp, faultEntered_raiseFault .illegalCmd w _⟩

/-! ### A word put before the step -/

/-- What `withFetchWord` puts before the step is a CMD write of the word, whose 32 bits the number gives. -/
theorem withFetchWord_pending (s : State) (n : Nat) :
    (s.withFetchWord 32 n).host.pending = .writeCtrl 0x00 (BitVec.ofNat 32 n) :: s.host.pending := by
  have hword : BitVec.ofNat 32 (n % 2 ^ 32) = BitVec.ofNat 32 n := BitVec.eq_of_toNat_eq (Nat.mod_mod n (2 ^ 32))
  rw [← hword]
  rfl

/-- Settles O6: the word is issued as a CMD write, and taking that write off the queue gives back the state. -/
theorem stepRunsTheSuppliedWord : Obligations.StepRunsTheSuppliedWord := by
  intro s n i hf hd
  calc step (s.withFetchWord 32 n)
      = exec i ((s.withFetchWord 32 n).withPending s.host.pending) :=
        step_cmd_of_decode hf hd (withFetchWord_pending s n)
    _ = exec i s := by rw [withFetchWord_withPending]

end Sys2Proof.Machine
end
